-- ==== Sys2Proof/Word.lean ====
section
/-! DEFINITION. The word types of the machine (`spec/00_scope.md` rules R12, R13): all values are
unsigned, and every width the spec names is a bit vector of that width. -/

namespace Sys2Proof

/-- `u4`: a register number, a key number, a row count (rule R12). -/
abbrev Nibble := BitVec 4

/-- `u8`: a register, a timer, a byte of memory, a pixel (rule R12). -/
abbrev Byte := BitVec 8

/-- `u12`: the address field of an instruction (rule R12). -/
abbrev Addr := BitVec 12

/-- `u16`: an instruction word, `pc`, `I`, a stack entry (rule R12). -/
abbrev Word := BitVec 16

end Sys2Proof
end

