-- ==== Sys2Proof/Config.lean ====
section
/-! DEFINITION. What the spec leaves to the environment of the machine as a value: the random byte
(`spec/60_exceptions.md` rule R327, decision D25). The two text parameters of rule R11, `DESCRIBE`
and `RENDER_FORMAT`, are arguments of `Sys2Proof.Machine.render` (`Machine/Disassembler.lean`). -/

namespace Sys2Proof

/-- The random source of rules R200 and R327: the byte it supplies to the `n`-th executed
`AndRandom`. A FREE VALUE: it has no body, so nothing can be proved of the byte it gives, and what
is proved holds for every source (log entry 1). -/
opaque Config.randomByte : Nat → Byte

end Sys2Proof
end

