-- ==== Sys2Proof/Syntax.lean ====
section
/-! DEFINITION. The instruction set: the 35 variants of `spec/30_encoding.md` rule R100, each with
the fields of that rule at the widths of rule R92. The docstring of a constructor gives the row's
pattern. `Return` is written `returnFromSubroutine`, since `return` is a word of Lean. -/

namespace Sys2Proof

/-- An Instruction value (rule R93). The two shifts carry the field `y` that their execution
ignores, so that `encode` gives it back. -/
inductive Instr where
  /-- `00E0` -/
  | clearScreen
  /-- `00EE` -/
  | returnFromSubroutine
  /-- `0nnn`, the catch-all of group `0` (rule R101) -/
  | callMachineLanguageSubroutine (address : Addr)
  /-- `1nnn` -/
  | jumpAbsolute (address : Addr)
  /-- `2nnn` -/
  | callSubroutine (address : Addr)
  /-- `3xkk` -/
  | skipIfEqualValue (x : Nibble) (value : Byte)
  /-- `4xkk` -/
  | skipIfNotEqualValue (x : Nibble) (value : Byte)
  /-- `5xy0` -/
  | skipIfEqualRegister (x y : Nibble)
  /-- `6xkk` -/
  | setValue (x : Nibble) (value : Byte)
  /-- `7xkk` -/
  | addValue (x : Nibble) (value : Byte)
  /-- `8xy0` -/
  | setRegister (x y : Nibble)
  /-- `8xy1` -/
  | orRegister (x y : Nibble)
  /-- `8xy2` -/
  | andRegister (x y : Nibble)
  /-- `8xy3` -/
  | xorRegister (x y : Nibble)
  /-- `8xy4` -/
  | addRegister (x y : Nibble)
  /-- `8xy5` -/
  | subtractYFromX (x y : Nibble)
  /-- `8xy6` -/
  | shiftRight (x y : Nibble)
  /-- `8xy7` -/
  | subtractXFromY (x y : Nibble)
  /-- `8xyE` -/
  | shiftLeft (x y : Nibble)
  /-- `9xy0` -/
  | skipIfNotEqualRegister (x y : Nibble)
  /-- `Annn` -/
  | setIndex (address : Addr)
  /-- `Bnnn` -/
  | jumpRelative (address : Addr)
  /-- `Cxkk` -/
  | andRandom (x : Nibble) (value : Byte)
  /-- `Dxyn` -/
  | draw (x y rows : Nibble)
  /-- `Ex9E` -/
  | skipIfKeyPressed (x : Nibble)
  /-- `ExA1` -/
  | skipIfKeyNotPressed (x : Nibble)
  /-- `Fx07` -/
  | storeDelayTimer (x : Nibble)
  /-- `Fx0A` -/
  | awaitKeyPress (x : Nibble)
  /-- `Fx15` -/
  | setDelayTimer (x : Nibble)
  /-- `Fx18` -/
  | setSoundTimer (x : Nibble)
  /-- `Fx1E` -/
  | addIndex (x : Nibble)
  /-- `Fx29` -/
  | setIndexFontCharacter (x : Nibble)
  /-- `Fx33` -/
  | storeBCD (x : Nibble)
  /-- `Fx55` -/
  | writeMemory (x : Nibble)
  /-- `Fx65` -/
  | readMemory (x : Nibble)
  deriving DecidableEq, Repr

end Sys2Proof
end

