-- ==== Sys2Proof/WellFormed.lean ====
section
/-! DEFINITION. Which Instruction values are constructible (`spec/30_encoding.md` rule R105). The
field widths of rule R92 are in the types, so one check is left: the catch-all never carries one of
the two addresses whose words are `ClearScreen` and `Return`. -/

namespace Sys2Proof

/-- Rule R105: every value of the type is well formed but
`CallMachineLanguageSubroutine(0x0E0)` and `CallMachineLanguageSubroutine(0x0EE)`. -/
def Instr.wf : Instr → Bool
  | .callMachineLanguageSubroutine address => address != 0x0E0 && address != 0x0EE
  | .clearScreen => true
  | .returnFromSubroutine => true
  | .jumpAbsolute _ => true
  | .callSubroutine _ => true
  | .skipIfEqualValue _ _ => true
  | .skipIfNotEqualValue _ _ => true
  | .skipIfEqualRegister _ _ => true
  | .setValue _ _ => true
  | .addValue _ _ => true
  | .setRegister _ _ => true
  | .orRegister _ _ => true
  | .andRegister _ _ => true
  | .xorRegister _ _ => true
  | .addRegister _ _ => true
  | .subtractYFromX _ _ => true
  | .shiftRight _ _ => true
  | .subtractXFromY _ _ => true
  | .shiftLeft _ _ => true
  | .skipIfNotEqualRegister _ _ => true
  | .setIndex _ => true
  | .jumpRelative _ => true
  | .andRandom _ _ => true
  | .draw _ _ _ => true
  | .skipIfKeyPressed _ => true
  | .skipIfKeyNotPressed _ => true
  | .storeDelayTimer _ => true
  | .awaitKeyPress _ => true
  | .setDelayTimer _ => true
  | .setSoundTimer _ => true
  | .addIndex _ => true
  | .setIndexFontCharacter _ => true
  | .storeBCD _ => true
  | .writeMemory _ => true
  | .readMemory _ => true

end Sys2Proof
end

