-- ==== Sys2Proof/Decode.lean ====
section
/-! DEFINITION. The codec: `decode` (`spec/48_codec_disassembler.md` rule R270), total on every word
and rejecting by name; the same on a byte sequence (rule R90); `encode` (rule R272); and the opcode
map of `spec/30_encoding.md` rule R100 as a table of its own, against which both can be held. -/

namespace Sys2Proof

/-- Why a word or a byte sequence gives no instruction. -/
inductive DecodeError where
  /-- The word matches no row of rule R100 (rules R103, R270); it carries the word. -/
  | unrecognizedOpcode (word : Word)
  /-- Fewer than two bytes are left, so there is no word to decode (rule R279: a single byte
  "cannot be reported as `UnrecognizedOpcode(word)` because there is no word"). -/
  | noWord
  deriving DecidableEq, Repr

/-! ### Fields of a word (rules R13, R92) -/

/-- `n3 = w[15:12]`, the group of the word. -/
def groupOf (w : Word) : Nibble := w.extractLsb' 12 4

/-- `x = w[11:8]`. -/
def fieldX (w : Word) : Nibble := w.extractLsb' 8 4

/-- `y = w[7:4]`. -/
def fieldY (w : Word) : Nibble := w.extractLsb' 4 4

/-- `n0 = w[3:0]`: the row count of `Dxyn`, the sub-opcode of groups `5`, `8` and `9`. -/
def fieldN (w : Word) : Nibble := w.extractLsb' 0 4

/-- `kk = w[7:0]`: the constant, and the sub-opcode of groups `E` and `F`. -/
def fieldValue (w : Word) : Byte := w.extractLsb' 0 8

/-- `nnn = w[11:0]`. -/
def fieldAddress (w : Word) : Addr := w.extractLsb' 0 12

/-- Rule R62: of the two bytes of a word the one at the lower address is the high-order byte. -/
def joinBytes (hi lo : Byte) : Word := hi ++ lo

/-- The high-order byte of a word, stored at the lower address (rule R62). -/
def highByte (w : Word) : Byte := w.extractLsb' 8 8

/-- The low-order byte of a word, stored at the higher address (rule R62). -/
def lowByte (w : Word) : Byte := w.extractLsb' 0 8

/-- The two bytes of a word in the order memory holds them (rule R62). -/
def wordBytes (w : Word) : List Byte := [highByte w, lowByte w]

/-! ### decode -/

/-- Group `8` of rule R270: nine sub-opcodes in the low nibble. -/
def decodeGroup8 (w : Word) : Except DecodeError Instr :=
  match (fieldN w).toNat with
  | 0x0 => .ok (.setRegister (fieldX w) (fieldY w))
  | 0x1 => .ok (.orRegister (fieldX w) (fieldY w))
  | 0x2 => .ok (.andRegister (fieldX w) (fieldY w))
  | 0x3 => .ok (.xorRegister (fieldX w) (fieldY w))
  | 0x4 => .ok (.addRegister (fieldX w) (fieldY w))
  | 0x5 => .ok (.subtractYFromX (fieldX w) (fieldY w))
  | 0x6 => .ok (.shiftRight (fieldX w) (fieldY w))
  | 0x7 => .ok (.subtractXFromY (fieldX w) (fieldY w))
  | 0xE => .ok (.shiftLeft (fieldX w) (fieldY w))
  | _ => .error (.unrecognizedOpcode w)

/-- Group `E` of rule R270: two sub-opcodes in the low byte. -/
def decodeGroupE (w : Word) : Except DecodeError Instr :=
  match (fieldValue w).toNat with
  | 0x9E => .ok (.skipIfKeyPressed (fieldX w))
  | 0xA1 => .ok (.skipIfKeyNotPressed (fieldX w))
  | _ => .error (.unrecognizedOpcode w)

/-- Group `F` of rule R270: nine sub-opcodes in the low byte. -/
def decodeGroupF (w : Word) : Except DecodeError Instr :=
  match (fieldValue w).toNat with
  | 0x07 => .ok (.storeDelayTimer (fieldX w))
  | 0x0A => .ok (.awaitKeyPress (fieldX w))
  | 0x15 => .ok (.setDelayTimer (fieldX w))
  | 0x18 => .ok (.setSoundTimer (fieldX w))
  | 0x1E => .ok (.addIndex (fieldX w))
  | 0x29 => .ok (.setIndexFontCharacter (fieldX w))
  | 0x33 => .ok (.storeBCD (fieldX w))
  | 0x55 => .ok (.writeMemory (fieldX w))
  | 0x65 => .ok (.readMemory (fieldX w))
  | _ => .error (.unrecognizedOpcode w)

/-- Rule R270, with the priority of rule R101 in group `0`. The last arm is group `0xF`: a nibble
has no further value. -/
def decode (w : Word) : Except DecodeError Instr :=
  match (groupOf w).toNat with
  | 0x0 =>
    if w = 0x00E0 then .ok .clearScreen
    else if w = 0x00EE then .ok .returnFromSubroutine
    else .ok (.callMachineLanguageSubroutine (fieldAddress w))
  | 0x1 => .ok (.jumpAbsolute (fieldAddress w))
  | 0x2 => .ok (.callSubroutine (fieldAddress w))
  | 0x3 => .ok (.skipIfEqualValue (fieldX w) (fieldValue w))
  | 0x4 => .ok (.skipIfNotEqualValue (fieldX w) (fieldValue w))
  | 0x5 =>
    if fieldN w = 0 then .ok (.skipIfEqualRegister (fieldX w) (fieldY w))
    else .error (.unrecognizedOpcode w)
  | 0x6 => .ok (.setValue (fieldX w) (fieldValue w))
  | 0x7 => .ok (.addValue (fieldX w) (fieldValue w))
  | 0x8 => decodeGroup8 w
  | 0x9 =>
    if fieldN w = 0 then .ok (.skipIfNotEqualRegister (fieldX w) (fieldY w))
    else .error (.unrecognizedOpcode w)
  | 0xA => .ok (.setIndex (fieldAddress w))
  | 0xB => .ok (.jumpRelative (fieldAddress w))
  | 0xC => .ok (.andRandom (fieldX w) (fieldValue w))
  | 0xD => .ok (.draw (fieldX w) (fieldY w) (fieldN w))
  | 0xE => decodeGroupE w
  | _ => decodeGroupF w

/-- The instruction at the head of a byte sequence, and the bytes after it: an instruction always
takes exactly two bytes (rule R90), the high-order one first (rule R62). -/
def decodeBytes : List Byte → Except DecodeError (Instr × List Byte)
  | hi :: lo :: rest =>
    match decode (joinBytes hi lo) with
    | .ok i => .ok (i, rest)
    | .error e => .error e
  | [_] => .error .noWord
  | [] => .error .noWord

/-! ### encode -/

/-- The formula of rule R272: the row's fixed bits with the fields placed back, written as the
concatenation of the word's parts from bit 15 down. -/
def encodeWord : Instr → Word
  | .clearScreen => 0x00E0
  | .returnFromSubroutine => 0x00EE
  | .callMachineLanguageSubroutine address => 0x0#4 ++ address
  | .jumpAbsolute address => 0x1#4 ++ address
  | .callSubroutine address => 0x2#4 ++ address
  | .skipIfEqualValue x value => 0x3#4 ++ x ++ value
  | .skipIfNotEqualValue x value => 0x4#4 ++ x ++ value
  | .skipIfEqualRegister x y => 0x5#4 ++ x ++ y ++ 0x0#4
  | .setValue x value => 0x6#4 ++ x ++ value
  | .addValue x value => 0x7#4 ++ x ++ value
  | .setRegister x y => 0x8#4 ++ x ++ y ++ 0x0#4
  | .orRegister x y => 0x8#4 ++ x ++ y ++ 0x1#4
  | .andRegister x y => 0x8#4 ++ x ++ y ++ 0x2#4
  | .xorRegister x y => 0x8#4 ++ x ++ y ++ 0x3#4
  | .addRegister x y => 0x8#4 ++ x ++ y ++ 0x4#4
  | .subtractYFromX x y => 0x8#4 ++ x ++ y ++ 0x5#4
  | .shiftRight x y => 0x8#4 ++ x ++ y ++ 0x6#4
  | .subtractXFromY x y => 0x8#4 ++ x ++ y ++ 0x7#4
  | .shiftLeft x y => 0x8#4 ++ x ++ y ++ 0xE#4
  | .skipIfNotEqualRegister x y => 0x9#4 ++ x ++ y ++ 0x0#4
  | .setIndex address => 0xA#4 ++ address
  | .jumpRelative address => 0xB#4 ++ address
  | .andRandom x value => 0xC#4 ++ x ++ value
  | .draw x y rows => 0xD#4 ++ x ++ y ++ rows
  | .skipIfKeyPressed x => 0xE#4 ++ x ++ 0x9E#8
  | .skipIfKeyNotPressed x => 0xE#4 ++ x ++ 0xA1#8
  | .storeDelayTimer x => 0xF#4 ++ x ++ 0x07#8
  | .awaitKeyPress x => 0xF#4 ++ x ++ 0x0A#8
  | .setDelayTimer x => 0xF#4 ++ x ++ 0x15#8
  | .setSoundTimer x => 0xF#4 ++ x ++ 0x18#8
  | .addIndex x => 0xF#4 ++ x ++ 0x1E#8
  | .setIndexFontCharacter x => 0xF#4 ++ x ++ 0x29#8
  | .storeBCD x => 0xF#4 ++ x ++ 0x33#8
  | .writeMemory x => 0xF#4 ++ x ++ 0x55#8
  | .readMemory x => 0xF#4 ++ x ++ 0x65#8

/-- `encode` (rule R272), of the constructible values only: the two ill-formed ones, whose words
decode to something else, are refused (rules R105, R274). -/
def encode (i : Instr) : Option Word := if i.wf then some (encodeWord i) else none

/-! ### The opcode map -/

/-- One row of rule R100: a word `w` selects it when `w & mask = value`. -/
structure OpcodeRow where
  mnemonic : String
  value : Word
  mask : Word
  deriving DecidableEq, Repr

/-- Rows 1 to 10 of rule R100. -/
def opcodeRowsControl : List OpcodeRow :=
  [⟨"ClearScreen", 0x00E0, 0xFFFF⟩, ⟨"Return", 0x00EE, 0xFFFF⟩,
   ⟨"CallMachineLanguageSubroutine", 0x0000, 0xF000⟩, ⟨"JumpAbsolute", 0x1000, 0xF000⟩,
   ⟨"CallSubroutine", 0x2000, 0xF000⟩, ⟨"SkipIfEqualValue", 0x3000, 0xF000⟩,
   ⟨"SkipIfNotEqualValue", 0x4000, 0xF000⟩, ⟨"SkipIfEqualRegister", 0x5000, 0xF00F⟩,
   ⟨"SetValue", 0x6000, 0xF000⟩, ⟨"AddValue", 0x7000, 0xF000⟩]

/-- Rows 11 to 19 of rule R100. -/
def opcodeRowsGroup8 : List OpcodeRow :=
  [⟨"SetRegister", 0x8000, 0xF00F⟩, ⟨"OrRegister", 0x8001, 0xF00F⟩,
   ⟨"AndRegister", 0x8002, 0xF00F⟩, ⟨"XorRegister", 0x8003, 0xF00F⟩,
   ⟨"AddRegister", 0x8004, 0xF00F⟩, ⟨"SubtractYFromX", 0x8005, 0xF00F⟩,
   ⟨"ShiftRight", 0x8006, 0xF00F⟩, ⟨"SubtractXFromY", 0x8007, 0xF00F⟩,
   ⟨"ShiftLeft", 0x800E, 0xF00F⟩]

/-- Rows 20 to 26 of rule R100. -/
def opcodeRowsMiddle : List OpcodeRow :=
  [⟨"SkipIfNotEqualRegister", 0x9000, 0xF00F⟩, ⟨"SetIndex", 0xA000, 0xF000⟩,
   ⟨"JumpRelative", 0xB000, 0xF000⟩, ⟨"AndRandom", 0xC000, 0xF000⟩, ⟨"Draw", 0xD000, 0xF000⟩,
   ⟨"SkipIfKeyPressed", 0xE09E, 0xF0FF⟩, ⟨"SkipIfKeyNotPressed", 0xE0A1, 0xF0FF⟩]

/-- Rows 27 to 35 of rule R100. -/
def opcodeRowsGroupF : List OpcodeRow :=
  [⟨"StoreDelayTimer", 0xF007, 0xF0FF⟩, ⟨"AwaitKeyPress", 0xF00A, 0xF0FF⟩,
   ⟨"SetDelayTimer", 0xF015, 0xF0FF⟩, ⟨"SetSoundTimer", 0xF018, 0xF0FF⟩,
   ⟨"AddIndex", 0xF01E, 0xF0FF⟩, ⟨"SetIndexFontCharacter", 0xF029, 0xF0FF⟩,
   ⟨"StoreBCD", 0xF033, 0xF0FF⟩, ⟨"WriteMemory", 0xF055, 0xF0FF⟩,
   ⟨"ReadMemory", 0xF065, 0xF0FF⟩]

/-- The opcode map of rule R100, in its order. -/
def opcodeTable : List OpcodeRow :=
  opcodeRowsControl ++ opcodeRowsGroup8 ++ opcodeRowsMiddle ++ opcodeRowsGroupF

/-- Rule R100: the word `w` selects the row. -/
def OpcodeRow.selects (row : OpcodeRow) (w : Word) : Bool := w &&& row.mask == row.value

/-- The variant name of an instruction, as rule R100 and `opcode_table.json` write it. -/
def Instr.mnemonic : Instr → String
  | .clearScreen => "ClearScreen"
  | .returnFromSubroutine => "Return"
  | .callMachineLanguageSubroutine _ => "CallMachineLanguageSubroutine"
  | .jumpAbsolute _ => "JumpAbsolute"
  | .callSubroutine _ => "CallSubroutine"
  | .skipIfEqualValue _ _ => "SkipIfEqualValue"
  | .skipIfNotEqualValue _ _ => "SkipIfNotEqualValue"
  | .skipIfEqualRegister _ _ => "SkipIfEqualRegister"
  | .setValue _ _ => "SetValue"
  | .addValue _ _ => "AddValue"
  | .setRegister _ _ => "SetRegister"
  | .orRegister _ _ => "OrRegister"
  | .andRegister _ _ => "AndRegister"
  | .xorRegister _ _ => "XorRegister"
  | .addRegister _ _ => "AddRegister"
  | .subtractYFromX _ _ => "SubtractYFromX"
  | .shiftRight _ _ => "ShiftRight"
  | .subtractXFromY _ _ => "SubtractXFromY"
  | .shiftLeft _ _ => "ShiftLeft"
  | .skipIfNotEqualRegister _ _ => "SkipIfNotEqualRegister"
  | .setIndex _ => "SetIndex"
  | .jumpRelative _ => "JumpRelative"
  | .andRandom _ _ => "AndRandom"
  | .draw _ _ _ => "Draw"
  | .skipIfKeyPressed _ => "SkipIfKeyPressed"
  | .skipIfKeyNotPressed _ => "SkipIfKeyNotPressed"
  | .storeDelayTimer _ => "StoreDelayTimer"
  | .awaitKeyPress _ => "AwaitKeyPress"
  | .setDelayTimer _ => "SetDelayTimer"
  | .setSoundTimer _ => "SetSoundTimer"
  | .addIndex _ => "AddIndex"
  | .setIndexFontCharacter _ => "SetIndexFontCharacter"
  | .storeBCD _ => "StoreBCD"
  | .writeMemory _ => "WriteMemory"
  | .readMemory _ => "ReadMemory"

/-! ### The host's numbering -/

/-- The instruction word that the table numbers as the low `nbits` bits of `w`: one 16-bit word,
every bit above `nbits` zero (rule R90: an instruction never has a second word). -/
def tableWord (nbits w : Nat) : Word := BitVec.ofNat 16 (w % 2 ^ nbits)

/-- The instruction the decoder reads from a table row's word, laid out in memory order first. -/
def decodeTableWord (nbits w : Nat) : Option Instr :=
  match decodeBytes (wordBytes (tableWord nbits w)) with
  | .ok (i, _) => some i
  | .error _ => none

end Sys2Proof
end

