-- ==== Sys2Proof/Machine/State.lean ====
section
/-! DEFINITION. The state of the machine (`spec/10_state.md`), the reasons a step or an operation
stops (`spec/60_exceptions.md` section 1), and the state right after reset
(`spec/70_reset_and_hazards.md` rule R340). -/

namespace Sys2Proof.Machine

/-- The faults of rule R15. A fault is an outcome handed to the caller and nothing else: it has no
cause code, no handler and no bit in the state (rules R306, R309), and the state stays what it was
before the step. All six are the spec's own conditions, so stopping there is what the spec says;
where the original software goes on instead, the difference is safe. -/
inductive Fault where
  /-- Rule R300: raised by a step whose fetched word matches no row of the opcode map. Safe. -/
  | unrecognizedOpcode (word : Word)
  /-- Rule R301: raised by `CallSubroutine` when 16 entries are in use (decision D14). Safe. -/
  | stackOverflow
  /-- Rule R302: raised by `Return` when no entry is in use (decision D15). Safe. -/
  | stackUnderflow
  /-- Rule R303: raised by the fetch, `Draw`, `StoreBCD`, `WriteMemory` and `ReadMemory` when an
  address passes `0xFFF`; it carries the lowest such address (decisions D11, D12). Safe. -/
  | memoryOutOfRange (addr : Nat)
  /-- Rule R304: raised by the two key skips when `V[x] > 15` (decision D17). Safe. -/
  | keyOutOfRange (value : Byte)
  /-- Rule R305: raised by `SetIndexFontCharacter` when `V[x] > 15` (decision D18). Safe. -/
  | fontDigitOutOfRange (value : Byte)
  deriving DecidableEq, Repr

/-- What the model turns away without an outcome of the spec's. No step refuses. -/
inductive Refusal where
  /-- Raised by an arm of `exec` whose instruction has no meaning yet; no arm does. Safe. -/
  | notModelled (mnemonic : String)
  /-- Rule R341: raised by `reset(rom)` when the ROM is longer than 3584 bytes. Safe: the spec says
  "`reset` refuses it and no machine state exists". -/
  | romTooLong (length : Nat)
  deriving DecidableEq, Repr

/-- Bytes by address, for the part of an array that differs from what an unlisted address reads as
(`Machine/Cells.lean` gives the canonical form and the operations). -/
abbrev Cells := List Host.Cell

/-- All the state of rule R18, under the spec's names. -/
structure State where
  /-- `V[0..15]`, 16 registers of 8 bits (rule R20). -/
  V : Vector Byte 16
  /-- The index register, 16 bits (rule R28). -/
  I : Word
  /-- The program counter, 16 bits (rule R23). -/
  pc : Word
  /-- The return-address stack, 16 entries of 16 bits (rule R29). -/
  stack : Vector Word 16
  /-- The number of stack entries in use, `0..16` (rule R29). -/
  sp : Fin 17
  /-- `delayTimer`, 8 bits (rule R31). -/
  DT : Byte
  /-- `soundTimer`, 8 bits (rule R32). -/
  ST : Byte
  /-- `keypad`: which of the 16 keys are held (rule R33). -/
  key : Vector Bool 16
  /-- `lastPressedKey`: the latched key press, if one is not yet consumed (rule R34). -/
  latch : Option Nibble
  /-- The 4096 bytes of memory (rules R36, R60), as the cells that differ from the reset contents
  `Machine.resetByte`. -/
  memory : Cells
  /-- The 2048 bytes of the screen (rule R37) by index `r * 64 + c`, as the cells that differ
  from 0. -/
  screen : Cells
  /-- THE MODEL'S OWN, not the spec's: how many random bytes have been drawn, so that the next one
  is `Config.randomByte draws` (rules R200, R327; log entry 1). -/
  draws : Nat
  deriving DecidableEq, Repr

/-- Rule R340 with the empty ROM. `pc` is DOC0's; the zeros are decision D20 of the spec; memory
lists nothing because an unlisted address reads as its reset contents. `draws` is the model's
(log entry 1). `Machine.resetWithRom` is `reset(rom)` for any ROM. -/
def State.reset : State where
  V := Vector.replicate 16 0
  I := 0
  pc := 0x200
  stack := Vector.replicate 16 0
  sp := 0
  DT := 0
  ST := 0
  key := Vector.replicate 16 false
  latch := none
  memory := []
  screen := []
  draws := 0

end Sys2Proof.Machine
end

