-- ==== Sys2Proof/Machine/Cells.lean ====
section
/-! DEFINITION. Arrays of bytes as lists of (address, byte) in one canonical form: addresses
strictly rising, and no entry equal to what an unlisted address reads as. Memory and the screen are
both such arrays; `unlisted` is what tells them apart. -/

namespace Sys2Proof.Machine

/-- The byte at address `a`. -/
def Cells.read (unlisted : Nat → Byte) : Cells → Nat → Byte
  | [], a => unlisted a
  | (k, v) :: rest, a => if k = a then v else Cells.read unlisted rest a

/-- Take the entry of address `a` out. -/
def Cells.erase (cells : Cells) (a : Nat) : Cells := cells.filter fun c => c.1 != a

/-- Put an entry in at its place by address, over one that is there. -/
def Cells.insert : Cells → Nat → Byte → Cells
  | [], a, v => [(a, v)]
  | (k, w) :: rest, a, v =>
    if a < k then (a, v) :: (k, w) :: rest
    else if a = k then (a, v) :: rest
    else (k, w) :: Cells.insert rest a v

/-- Store byte `v` at address `a`: a byte that an unlisted address reads as is not listed. -/
def Cells.write (unlisted : Nat → Byte) (cells : Cells) (a : Nat) (v : Byte) : Cells :=
  if v = unlisted a then cells.erase a else cells.insert a v

/-- Store bytes at `base`, `base + 1`, … in ascending order (rule R63). -/
def Cells.writeAll (unlisted : Nat → Byte) : Cells → Nat → List Byte → Cells
  | cells, _, [] => cells
  | cells, base, v :: rest => Cells.writeAll unlisted (cells.write unlisted base v) (base + 1) rest

/-! ### Memory -/

/-- The font of rule R64, glyphs `0` to `7`, in the order of their addresses. -/
def fontLow : List Byte :=
  [0xF0, 0x90, 0x90, 0x90, 0xF0, 0x20, 0x60, 0x20, 0x20, 0x70,
   0xF0, 0x10, 0xF0, 0x80, 0xF0, 0xF0, 0x10, 0xF0, 0x10, 0xF0,
   0x90, 0x90, 0xF0, 0x10, 0x10, 0xF0, 0x80, 0xF0, 0x10, 0xF0,
   0xF0, 0x80, 0xF0, 0x90, 0xF0, 0xF0, 0x10, 0x20, 0x40, 0x40]

/-- The font of rule R64, glyphs `8` to `F`. -/
def fontHigh : List Byte :=
  [0xF0, 0x90, 0xF0, 0x90, 0xF0, 0xF0, 0x90, 0xF0, 0x10, 0xF0,
   0xF0, 0x90, 0xF0, 0x90, 0x90, 0xE0, 0x90, 0xE0, 0x90, 0xE0,
   0xF0, 0x80, 0x80, 0x80, 0xF0, 0xE0, 0x90, 0x90, 0x90, 0xE0,
   0xF0, 0x80, 0xF0, 0x80, 0xF0, 0xF0, 0x80, 0xF0, 0x80, 0x80]

/-- The 80 bytes of the font, glyph `d` at `5 * d` (rules R60, R64). -/
def font : List Byte := fontLow ++ fontHigh

/-- What memory holds right after a reset with the empty ROM: the font in `0x000..0x04F` and 0
everywhere else (rules R60, R340). This is what an unlisted address of memory reads as. -/
def resetByte (a : Nat) : Byte := font.getD a 0

/-- Memory has 4096 addresses (rules R36, R60) and is in canonical form. -/
abbrev Memory.wf (memory : Cells) : Prop :=
  (memory.map Prod.fst).Pairwise (· < ·) ∧
    ∀ c ∈ memory, c.1 ≤ 0xFFF ∧ c.2 ≠ resetByte c.1

/-! ### The screen -/

/-- A pixel that is not listed is 0 (rule R340). -/
def darkPixel (_ : Nat) : Byte := 0

/-- The screen has 2048 bytes, each 0 or 1 (rule R37): listed are the pixels that are 1. -/
abbrev Screen.wf (screen : Cells) : Prop :=
  (screen.map Prod.fst).Pairwise (· < ·) ∧ ∀ c ∈ screen, c.1 < 2048 ∧ c.2 = 1

end Sys2Proof.Machine
end

