-- ==== Sys2Proof/Machine/Ops.lean ====
section
/-! DEFINITION. The primitives of `spec/00_scope.md` rule R14, each the one way to its piece of
state; raising a fault; the instruction fetch; and the end of a step, where `pc` is updated
(`spec/40_cycle.md`). -/

namespace Sys2Proof.Machine

/-- What a step answers. -/
abbrev Result := Host.Outcome State Fault Refusal

/-- `raise F` of rule R14. The machine has no trap entry (rule R309): a fault ends the operation,
is handed to the caller, and leaves the state it was raised in (rules R125, R306). This is the one
place where the model takes an exception; there is no return from one (rule R310). -/
def raise (f : Fault) : Result := .fault f

/-! ### Registers -/

/-- `V[k]` (rule R20). No register is hardwired. -/
def State.reg (s : State) (k : Nibble) : Byte := s.V[k.toNat]'k.isLt

/-- `V[k] <- v` (rule R20). -/
def State.setReg (s : State) (k : Nibble) (v : Byte) : State :=
  { s with V := s.V.set k.toNat v k.isLt }

/-- Load bytes into the registers from number `k` upwards (rule R224). -/
def State.setRegs (s : State) : Nat → List Byte → State
  | _, [] => s
  | k, v :: rest => (s.setReg (BitVec.ofNat 4 k) v).setRegs (k + 1) rest

/-- The contents of `V[0]..V[x]`, in ascending order (rule R222). -/
def State.regsUpTo (s : State) (x : Nibble) : List Byte :=
  (List.range (x.toNat + 1)).map fun k => s.reg (BitVec.ofNat 4 k)

/-- `I <- v` (rule R28). -/
def State.setIndex (s : State) (v : Word) : State := { s with I := v }

/-- `pc <- v` (rule R23). -/
def State.setPc (s : State) (v : Word) : State := { s with pc := v }

/-! ### The stack (rule R29) -/

/-- Push: the entry at `sp` is written, then `sp` grows by one (rule R142). -/
def State.push (s : State) (v : Word) (room : s.sp.val < 16) : State :=
  { s with stack := s.stack.set s.sp.val v room, sp := ⟨s.sp.val + 1, by omega⟩ }

/-- The entry in use that was pushed last (rule R144); asked for only when `sp` is not 0. -/
def State.top (s : State) : Word := s.stack[s.sp.val - 1]'(by have := s.sp.isLt; omega)

/-- Pop: `sp` shrinks by one, and the entry keeps its value (rule R144). -/
def State.pop (s : State) : State :=
  { s with sp := ⟨s.sp.val - 1, by have := s.sp.isLt; omega⟩ }

/-! ### Timers, keypad, latch -/

/-- `DT <- v` (rule R31). -/
def State.setDT (s : State) (v : Byte) : State := { s with DT := v }

/-- `ST <- v` (rule R32). -/
def State.setST (s : State) (v : Byte) : State := { s with ST := v }

/-- `key[k]` (rule R33). -/
def State.keyHeld (s : State) (k : Nibble) : Bool := s.key[k.toNat]'k.isLt

/-- `key[k] <- b` (rule R33). -/
def State.setKey (s : State) (k : Nibble) (b : Bool) : State :=
  { s with key := s.key.set k.toNat b k.isLt }

/-- `latch <- v` (rule R34). -/
def State.setLatch (s : State) (v : Option Nibble) : State := { s with latch := v }

/-- One random byte has been taken from the source (rule R200: exactly one per `AndRandom`). -/
def State.countDraw (s : State) : State := { s with draws := s.draws + 1 }

/-! ### Memory -/

/-- `memory[a]` for an address that exists. -/
def State.byteAt (s : State) (a : Nat) : Byte := s.memory.read resetByte a

/-- `memory[base], memory[base+1], … <- bytes`, ascending (rule R63), for addresses that exist. -/
def State.storeBytes (s : State) (base : Nat) (bytes : List Byte) : State :=
  { s with memory := s.memory.writeAll resetByte base bytes }

/-- The bytes `memory[base..base+n-1]`, ascending (rule R63), for addresses that exist. -/
def State.loadBytes (s : State) (base n : Nat) : List Byte :=
  (List.range n).map fun k => s.byteAt (base + k)

/-- `MemRead(a, 1)` of rules R14 and R66: an address above `0xFFF` raises. -/
def State.memRead (s : State) (a : Nat) : Except Fault Byte :=
  if a ≤ 0xFFF then .ok (s.byteAt a) else .error (.memoryOutOfRange a)

/-- Rule R66: an instruction that accesses the `count` bytes from `base` on checks its whole range
first, on the untruncated sum, and raises with the lowest address that does not exist before it
changes anything. `body` is the rest of the instruction. -/
def withinMemory (base count : Nat) (body : Result) : Result :=
  if 1 ≤ count ∧ base + count - 1 > 0xFFF then raise (.memoryOutOfRange (max base 0x1000))
  else body

/-! ### The screen -/

/-- `px[r][c]`, at index `r * 64 + c` (rule R37). -/
def State.px (s : State) (r c : Nat) : Byte := s.screen.read darkPixel (r * 64 + c)

/-- `px[r][c] <- v` (rule R37). -/
def State.setPx (s : State) (r c : Nat) (v : Byte) : State :=
  { s with screen := s.screen.write darkPixel (r * 64 + c) v }

/-- Every pixel to 0 (rule R230). -/
def State.clearPx (s : State) : State := { s with screen := [] }

/-! ### Fetch and decode -/

/-- `Fetch16(a)` of rule R14: two reads, the byte at the lower address the high-order one (rule
R62). Past the end of memory the first read that fails names the lowest missing address (R68). -/
def State.fetch16 (s : State) (a : Nat) : Except Fault Word :=
  match s.memRead a with
  | .error f => .error f
  | .ok hi =>
    match s.memRead (a + 1) with
    | .error f => .error f
    | .ok lo => .ok (joinBytes hi lo)

/-- Steps 1 and 2 of rule R120: fetch the word at `pc` (R121), then decode it (R122). A fetch fault
comes before a decode fault (rule R308). -/
def State.fetchInstr (s : State) : Except Fault Instr :=
  match s.fetch16 s.pc.toNat with
  | .error f => .error f
  | .ok word =>
    match decode word with
    | .error _ => .error (.unrecognizedOpcode word)
    | .ok i => .ok i

/-! ### The end of a step -/

/-- The four `pc` dispositions of rule R123. -/
inductive Disposition where
  | next
  | skip
  | set (target : Word)
  | hold
  deriving DecidableEq, Repr

/-- Rule R124: the new `pc` from the address of the executing instruction, modulo 65536. -/
def Disposition.newPc (pc : Word) : Disposition → Word
  | .next => pc + 2
  | .skip => pc + 4
  | .set target => target
  | .hold => pc

/-- Step 5 of rule R120: the body has left `s`, with `pc` still at the executing instruction, and
ends with disposition `d`. -/
def finish (s : State) (d : Disposition) : Result := .next (s.setPc (d.newPc s.pc))

end Sys2Proof.Machine
end

