-- ==== Sys2Proof/Machine/Flags.lean ====
section
/-! DEFINITION. The flag computations. The only flag is `VF`, written by the seven variants of
`spec/10_state.md` rule R26, each with exactly 0 or 1. -/

namespace Sys2Proof.Machine

/-- The register that doubles as the flag (rule R22). -/
def flagReg : Nibble := 0xF

/-- `VF <- f`. The rules write the flag BEFORE the destination, and the destination's statement
reads the registers again (rule R27, decision D8). -/
def State.setFlag (s : State) (f : Byte) : State := s.setReg flagReg f

/-- Rule R190: 1 if the sum of naturals is above 255. -/
def carryFlag (a b : Byte) : Byte := if a.toNat + b.toNat > 255 then 1 else 0

/-- Rules R192 and R196: 0 if `a - b` borrows, else 1; equal operands give 1. -/
def notBorrowFlag (a b : Byte) : Byte := if a.toNat < b.toNat then 0 else 1

/-- Rule R194: bit 0 of the operand, which a right shift moves out. -/
def shiftedOutRight (a : Byte) : Byte := a &&& 1

/-- Rule R198: bit 7 of the operand, which a left shift moves out. -/
def shiftedOutLeft (a : Byte) : Byte := (a &&& 0x80) >>> 7

/-- Rule R212: 1 if the sum of naturals leaves the 4096 bytes of memory. -/
def indexFlag (i : Word) (a : Byte) : Byte := if i.toNat + a.toNat > 0xFFF then 1 else 0

end Sys2Proof.Machine
end

