-- ==== Sys2Proof/Machine/Alu.lean ====
section
/-! DEFINITION. `spec/43_alu.md`: register load, logic, arithmetic, shifts and the random byte.
Arithmetic is on unsigned bytes modulo 256 (rule R202). None of these can fault. -/

namespace Sys2Proof.Machine

/-- Rule R180. -/
def execSetValue (x : Nibble) (value : Byte) (s : State) : Result :=
  finish (s.setReg x value) .next

/-- Rule R182: no flag. -/
def execAddValue (x : Nibble) (value : Byte) (s : State) : Result :=
  finish (s.setReg x (s.reg x + value)) .next

/-- Rule R184. -/
def execSetRegister (x y : Nibble) (s : State) : Result :=
  finish (s.setReg x (s.reg y)) .next

/-- Rule R186: `VF` is not reset. -/
def execOrRegister (x y : Nibble) (s : State) : Result :=
  finish (s.setReg x (s.reg x ||| s.reg y)) .next

/-- Rule R187: `VF` is not reset. -/
def execAndRegister (x y : Nibble) (s : State) : Result :=
  finish (s.setReg x (s.reg x &&& s.reg y)) .next

/-- Rule R188: `VF` is not reset. -/
def execXorRegister (x y : Nibble) (s : State) : Result :=
  finish (s.setReg x (s.reg x ^^^ s.reg y)) .next

/-- The second statement of the flag-writing rules: the destination from the registers as the flag
write has left them (rule R27). -/
def writeBack (x : Nibble) (value : State → Byte) (flagged : State) : Result :=
  finish (flagged.setReg x (value flagged)) .next

/-- Rule R190. -/
def execAddRegister (x y : Nibble) (s : State) : Result :=
  writeBack x (fun t => t.reg x + t.reg y) (s.setFlag (carryFlag (s.reg x) (s.reg y)))

/-- Rule R192. -/
def execSubtractYFromX (x y : Nibble) (s : State) : Result :=
  writeBack x (fun t => t.reg x - t.reg y) (s.setFlag (notBorrowFlag (s.reg x) (s.reg y)))

/-- Rule R194: the operand is `V[x]`; `y` is ignored. -/
def execShiftRight (x _y : Nibble) (s : State) : Result :=
  writeBack x (fun t => t.reg x >>> 1) (s.setFlag (shiftedOutRight (s.reg x)))

/-- Rule R196: the destination is `V[x]`. -/
def execSubtractXFromY (x y : Nibble) (s : State) : Result :=
  writeBack x (fun t => t.reg y - t.reg x) (s.setFlag (notBorrowFlag (s.reg y) (s.reg x)))

/-- Rule R198: the operand is `V[x]`; `y` is ignored. -/
def execShiftLeft (x _y : Nibble) (s : State) : Result :=
  writeBack x (fun t => t.reg x <<< 1) (s.setFlag (shiftedOutLeft (s.reg x)))

/-- Rule R200 for the byte `rnd` that the environment supplies to this step. -/
def andRandomWith (rnd : Byte) (x : Nibble) (value : Byte) (s : State) : Result :=
  finish (s.countDraw.setReg x (rnd &&& value)) .next

/-- Rule R200: the byte is a draw from the random source (log entry 1). -/
def execAndRandom (x : Nibble) (value : Byte) (s : State) : Result :=
  andRandomWith (Config.randomByte s.draws) x value s

end Sys2Proof.Machine
end

