-- ==== Sys2Proof/Machine/Operands.lean ====
section
/-! DEFINITION. The operand forms of the instruction set: how a field of an instruction becomes the
value its rule computes with (`spec/30_encoding.md` rule R92). A register operand is `State.reg`,
a constant stands for itself. -/

namespace Sys2Proof.Machine

/-- `zext_16(address)`: an address field as a value of `pc` or `I` (rule R92). -/
def addressOperand (address : Addr) : Word := address.setWidth 16

/-- The register operand `V[x]` widened to 16 bits (rules R146, R212). -/
def wideOperand (s : State) (x : Nibble) : Word := (s.reg x).setWidth 16

/-- The base address of a memory instruction: `I`, as a natural number (rule R226). -/
def baseAddress (s : State) : Nat := s.I.toNat

/-- `V[x]` as the number of a key (rules R170, R172): above 15 the instruction raises, otherwise
`body` goes on with the key's number. -/
def withKeyOperand (s : State) (x : Nibble) (body : Nibble → Result) : Result :=
  if (s.reg x).toNat > 15 then raise (.keyOutOfRange (s.reg x))
  else body ((s.reg x).setWidth 4)

/-- `V[x]` as a hexadecimal digit of the font (rule R214): above 15 the instruction raises,
otherwise `body` goes on with the digit. -/
def withDigitOperand (s : State) (x : Nibble) (body : Nat → Result) : Result :=
  if (s.reg x).toNat > 15 then raise (.fontDigitOutOfRange (s.reg x))
  else body (s.reg x).toNat

/-- A key's number as the value of a register (rule R256): zero-extended to 8 bits. -/
def keyCode (k : Nibble) : Byte := k.setWidth 8

end Sys2Proof.Machine
end

