-- ==== Sys2Proof/Machine/ControlFlow.lean ====
section
/-! DEFINITION. `spec/41_control_flow.md`: jumps, call, return, and the machine-language call. -/

namespace Sys2Proof.Machine

/-- Rule R140. -/
def execJumpAbsolute (address : Addr) (s : State) : Result :=
  finish s (.set (addressOperand address))

/-- Rule R142: the check comes first; the entry pushed is the address after the call. -/
def execCallSubroutine (address : Addr) (s : State) : Result :=
  if room : s.sp.val < 16 then finish (s.push (s.pc + 2) room) (.set (addressOperand address))
  else raise .stackOverflow

/-- Rule R144: `pc` is the popped entry and is not advanced further. -/
def execReturnFromSubroutine (s : State) : Result :=
  if s.sp.val = 0 then raise .stackUnderflow else finish s.pop (.set s.top)

/-- Rule R146: always `V[0]`, and the sum is not reduced to 12 bits. -/
def execJumpRelative (address : Addr) (s : State) : Result :=
  finish s (.set (addressOperand address + wideOperand s 0))

/-- Rule R148: "explicitly a no-op"; the address is ignored. -/
def execCallMachineLanguageSubroutine (_address : Addr) (s : State) : Result := finish s .next

end Sys2Proof.Machine
end

