-- ==== Sys2Proof/Machine/Display.lean ====
section
/-! DEFINITION. `spec/45_display.md`: clearing the screen, and the sprite blit with XOR, wraparound
and the collision flag. That both set the `redraw` output is in `Machine/Outputs.lean`. -/

namespace Sys2Proof.Machine

/-- Rule R230. `VF` is not written. -/
def execClearScreen (s : State) : Result := finish s.clearPx .next

/-- One set sprite bit on the pixel at row `r`, column `c` (rule R232): the flag if the pixel is 1,
then the pixel toggled. -/
def togglePx (r c : Nat) (s : State) : State :=
  (if s.px r c = 1 then s.setFlag 1 else s).setPx r c (s.px r c ^^^ 1)

/-- Bit `c` of a sprite byte, counted from the left: `c = 0` is bit 7 (rule R232, "MSB first"). -/
def spriteBit (b : Byte) (c : Nat) : Bool := b.getLsbD (7 - c)

/-- One sprite byte on screen row `row`, from column origin `vx` (rule R232): columns wrap
modulo 64. -/
def drawRow (vx row : Nat) (b : Byte) (s : State) : State :=
  (List.range 8).foldl
    (fun t c => if spriteBit b c then togglePx row ((vx + c) % 64) t else t) s

/-- The sprite of `rows` bytes at `memory[I]`, with its origin at column `vx` and row `vy` (rule
R232): rows wrap modulo 32. -/
def drawSprite (vx vy rows : Nat) (s : State) : State :=
  (List.range rows).foldl
    (fun t r => drawRow vx ((vy + r) % 32) (t.byteAt (baseAddress t + r)) t) s

/-- Rule R232: the range is checked first; the flag is cleared; the origin is sampled once, after
that (decision D9). With no rows nothing is read and nothing can fault. -/
def execDraw (x y rows : Nibble) (s : State) : Result :=
  withinMemory (baseAddress s) rows.toNat
    (let t := s.setFlag 0
     finish (drawSprite (t.reg x).toNat (t.reg y).toNat rows.toNat t) .next)

end Sys2Proof.Machine
end

