-- ==== Sys2Proof/Machine/IndexMemory.lean ====
section
/-! DEFINITION. `spec/44_index_memory.md`: the index register, the decimal store and the block
copies. The one addressing mode is `I` plus a constant the instruction generates, on the untruncated
sum (rule R226); only the three instructions that name `I` as destination change it. -/

namespace Sys2Proof.Machine

/-- Rule R210. -/
def execSetIndex (address : Addr) (s : State) : Result :=
  finish (s.setIndex (addressOperand address)) .next

/-- Rule R212: `I` grows by `V[x]` as the flag write has left it, modulo 65536, not masked to 12
bits. -/
def execAddIndex (x : Nibble) (s : State) : Result :=
  let t := s.setFlag (indexFlag s.I (s.reg x))
  finish (t.setIndex (t.I + wideOperand t x)) .next

/-- Rule R214: glyph `d` is at `5 * d`. -/
def execSetIndexFontCharacter (x : Nibble) (s : State) : Result :=
  withDigitOperand s x fun d => finish (s.setIndex (BitVec.ofNat 16 (5 * d))) .next

/-- The three decimal digits of a byte, hundreds first (rule R220). -/
def decimalDigits (v : Byte) : List Byte :=
  [BitVec.ofNat 8 (v.toNat / 100), BitVec.ofNat 8 (v.toNat / 10 % 10),
   BitVec.ofNat 8 (v.toNat % 10)]

/-- Rule R220. -/
def execStoreBCD (x : Nibble) (s : State) : Result :=
  withinMemory (baseAddress s) 3
    (finish (s.storeBytes (baseAddress s) (decimalDigits (s.reg x))) .next)

/-- Rule R222: `V[0]..V[x]`, and `I` is unchanged. -/
def execWriteMemory (x : Nibble) (s : State) : Result :=
  withinMemory (baseAddress s) (x.toNat + 1)
    (finish (s.storeBytes (baseAddress s) (s.regsUpTo x)) .next)

/-- Rule R224: `V[0]..V[x]`, and `I` is unchanged. -/
def execReadMemory (x : Nibble) (s : State) : Result :=
  withinMemory (baseAddress s) (x.toNat + 1)
    (finish (s.setRegs 0 (s.loadBytes (baseAddress s) (x.toNat + 1))) .next)

end Sys2Proof.Machine
end

