-- ==== Sys2Proof/Machine/Skips.lean ====
section
/-! DEFINITION. `spec/42_skips.md`: the six skips. Each evaluates a condition and writes nothing
but `pc`; the skipped word is not looked at (rule R174). -/

namespace Sys2Proof.Machine

/-- Rule R159: `SKIP` if the condition holds, `NEXT` if not. -/
def skipIf (condition : Bool) (s : State) : Result :=
  finish s (if condition then .skip else .next)

/-- Rule R160. -/
def execSkipIfEqualValue (x : Nibble) (value : Byte) (s : State) : Result :=
  skipIf (s.reg x == value) s

/-- Rule R162. -/
def execSkipIfNotEqualValue (x : Nibble) (value : Byte) (s : State) : Result :=
  skipIf (s.reg x != value) s

/-- Rule R164. -/
def execSkipIfEqualRegister (x y : Nibble) (s : State) : Result :=
  skipIf (s.reg x == s.reg y) s

/-- Rule R166. -/
def execSkipIfNotEqualRegister (x y : Nibble) (s : State) : Result :=
  skipIf (s.reg x != s.reg y) s

/-- Rule R170: the held state of the key numbered `V[x]`; the latch is not looked at. -/
def execSkipIfKeyPressed (x : Nibble) (s : State) : Result :=
  withKeyOperand s x fun k => skipIf (s.keyHeld k) s

/-- Rule R172. -/
def execSkipIfKeyNotPressed (x : Nibble) (s : State) : Result :=
  withKeyOperand s x fun k => skipIf (!s.keyHeld k) s

end Sys2Proof.Machine
end

