-- ==== Sys2Proof/Machine/TimersKeypad.lean ====
section
/-! DEFINITION. `spec/46_timers_keypad.md`: the three timer moves and the key wait; and the two
external operations on the same state, `tick timer` and `set key state`
(`spec/60_exceptions.md` rules R320, R323). -/

namespace Sys2Proof.Machine

/-- Rule R250. -/
def execStoreDelayTimer (x : Nibble) (s : State) : Result := finish (s.setReg x s.DT) .next

/-- Rule R252. -/
def execSetDelayTimer (x : Nibble) (s : State) : Result := finish (s.setDT (s.reg x)) .next

/-- Rule R254. -/
def execSetSoundTimer (x : Nibble) (s : State) : Result := finish (s.setST (s.reg x)) .next

/-- Rule R256: a latched press is consumed; without one the instruction holds, and nothing
changes. -/
def execAwaitKeyPress (x : Nibble) (s : State) : Result :=
  match s.latch with
  | some k => finish ((s.setReg x (keyCode k)).setLatch none) .next
  | none => finish s .hold

/-- One tick of a timer: toward 0, where it stays (rule R320). -/
def countDown (t : Byte) : Byte := if t = 0 then 0 else t - 1

/-- `tick timer` (rule R320): the new state and the `beep` output. -/
def tickTimer (s : State) : State × Bool :=
  ((s.setDT (countDown s.DT)).setST (countDown s.ST), s.ST == 1)

/-- `set key state(pressed, key)` (rule R323). A release leaves the latch. -/
def setKeyState (pressed : Bool) (k : Nibble) (s : State) : State :=
  if pressed then (s.setKey k true).setLatch (some k) else s.setKey k false

end Sys2Proof.Machine
end

