-- ==== Sys2Proof/Machine/Dispatch.lean ====
section
/-! DEFINITION. Step 4 of `spec/40_cycle.md` rule R120: exactly one variant body runs, selected by
the decoded variant (rule R123). -/

namespace Sys2Proof.Machine

/-- The meaning of an instruction in a state. -/
def exec (i : Instr) (s : State) : Host.Outcome State Fault Refusal :=
  match i with
  | .clearScreen => Sys2Proof.Machine.execClearScreen s
  | .returnFromSubroutine => Sys2Proof.Machine.execReturnFromSubroutine s
  | .callMachineLanguageSubroutine address => Sys2Proof.Machine.execCallMachineLanguageSubroutine address s
  | .jumpAbsolute address => Sys2Proof.Machine.execJumpAbsolute address s
  | .callSubroutine address => Sys2Proof.Machine.execCallSubroutine address s
  | .skipIfEqualValue x value => Sys2Proof.Machine.execSkipIfEqualValue x value s
  | .skipIfNotEqualValue x value => Sys2Proof.Machine.execSkipIfNotEqualValue x value s
  | .skipIfEqualRegister x y => Sys2Proof.Machine.execSkipIfEqualRegister x y s
  | .setValue x value => Sys2Proof.Machine.execSetValue x value s
  | .addValue x value => Sys2Proof.Machine.execAddValue x value s
  | .setRegister x y => Sys2Proof.Machine.execSetRegister x y s
  | .orRegister x y => Sys2Proof.Machine.execOrRegister x y s
  | .andRegister x y => Sys2Proof.Machine.execAndRegister x y s
  | .xorRegister x y => Sys2Proof.Machine.execXorRegister x y s
  | .addRegister x y => Sys2Proof.Machine.execAddRegister x y s
  | .subtractYFromX x y => Sys2Proof.Machine.execSubtractYFromX x y s
  | .shiftRight x y => Sys2Proof.Machine.execShiftRight x y s
  | .subtractXFromY x y => Sys2Proof.Machine.execSubtractXFromY x y s
  | .shiftLeft x y => Sys2Proof.Machine.execShiftLeft x y s
  | .skipIfNotEqualRegister x y => Sys2Proof.Machine.execSkipIfNotEqualRegister x y s
  | .setIndex address => Sys2Proof.Machine.execSetIndex address s
  | .jumpRelative address => Sys2Proof.Machine.execJumpRelative address s
  | .andRandom x value => Sys2Proof.Machine.execAndRandom x value s
  | .draw x y rows => Sys2Proof.Machine.execDraw x y rows s
  | .skipIfKeyPressed x => Sys2Proof.Machine.execSkipIfKeyPressed x s
  | .skipIfKeyNotPressed x => Sys2Proof.Machine.execSkipIfKeyNotPressed x s
  | .storeDelayTimer x => Sys2Proof.Machine.execStoreDelayTimer x s
  | .awaitKeyPress x => Sys2Proof.Machine.execAwaitKeyPress x s
  | .setDelayTimer x => Sys2Proof.Machine.execSetDelayTimer x s
  | .setSoundTimer x => Sys2Proof.Machine.execSetSoundTimer x s
  | .addIndex x => Sys2Proof.Machine.execAddIndex x s
  | .setIndexFontCharacter x => Sys2Proof.Machine.execSetIndexFontCharacter x s
  | .storeBCD x => Sys2Proof.Machine.execStoreBCD x s
  | .writeMemory x => Sys2Proof.Machine.execWriteMemory x s
  | .readMemory x => Sys2Proof.Machine.execReadMemory x s

end Sys2Proof.Machine
end

