-- ==== Sys2Proof/Machine/Program.lean ====
section
/-! DEFINITION. How a program comes into memory: `reset(rom)` of `spec/70_reset_and_hazards.md`
rule R340, and one word placed at the fetch address for the host's questions (log entry 8). -/

namespace Sys2Proof.Machine

/-- `reset(rom)` (rules R75, R340, R341): the state of `State.reset` with the ROM copied to
`0x200`, or no state at all for a ROM longer than 3584 bytes. -/
def resetWithRom (rom : List Byte) : Result :=
  if rom.length ≤ 3584 then .next (State.reset.storeBytes 0x200 rom)
  else .refused (.romTooLong rom.length)

/-- `pc` where a word can be fetched: a `pc` that no fetch can use becomes the entry point. -/
def State.atFetchablePc (s : State) : State :=
  if s.pc.toNat ≤ 0xFFE then s else s.setPc 0x200

/-- A word stored at `pc`, big-endian (rule R62). -/
def State.placeWord (s : State) (w : Word) : State :=
  let t := s.atFetchablePc
  t.storeBytes t.pc.toNat (wordBytes w)

end Sys2Proof.Machine
end

