-- ==== Sys2Proof/Machine/Step.lean ====
section
/-! DEFINITION. `step cycle` of `spec/40_cycle.md` rule R120 as one transition of the state: fetch,
decode, execute, advance. Its outputs are in `Machine/Outputs.lean`. -/

namespace Sys2Proof.Machine

/-- Rule R120: the first fault of fetch, decode and execute ends the step (rule R308). -/
def step (s : State) : Host.Outcome State Fault Refusal :=
  match s.fetchInstr with
  | .error f => raise f
  | .ok i => exec i s

/-- `s` with the instruction word stored where `step` fetches next (log entry 8). -/
def State.withFetchWord (s : State) (nbits w : Nat) : State := s.placeWord (tableWord nbits w)

end Sys2Proof.Machine
end

