-- ==== Sys2Proof/Machine/Describe.lean ====
section
/-! DEFINITION. `describe` (`spec/48_codec_disassembler.md` rules R276, R277): one English sentence
per variant, with the operands in hexadecimal. It is the default of the parameter `DESCRIBE` (rule
R11), used by the disassembler and never by execution. -/

namespace Sys2Proof.Machine

/-- The hexadecimal digits, upper case (rule R277): the digit at place `n` has the value `n`. -/
def hexDigits : List Char := "0123456789ABCDEF".toList

/-- The digit of the value `n % 16`. -/
def hexDigit (n : Nat) : Char := hexDigits.getD (n % 16) '0'

/-- The low `digits` hexadecimal digits of `n`, most significant first, with leading zeros. -/
def hexChars : Nat → Nat → List Char
  | 0, _ => []
  | digits + 1, n => hexChars digits (n / 16) ++ [hexDigit n]

/-- The same as a text. -/
def hex (digits n : Nat) : String := String.ofList (hexChars digits n)

/-- An address as rule R277 spells it: `0x` and 3 digits. -/
def spellAddress (a : Addr) : String := "0x" ++ hex 3 a.toNat

/-- A register as rule R277 spells it: `V` and 1 digit. -/
def spellReg (x : Nibble) : String := "V" ++ hex 1 x.toNat

/-- A constant as rule R277 spells it: `0x` and 2 digits. -/
def spellValue (v : Byte) : String := "0x" ++ hex 2 v.toNat

/-- A row count as rule R277 spells it: `0x` and 1 digit. -/
def spellRows (n : Nibble) : String := "0x" ++ hex 1 n.toNat

/-- The sentence table of rule R277. -/
def describe : Instr → String
  | .callMachineLanguageSubroutine a => "Call machine language subroutine at " ++ spellAddress a
  | .clearScreen => "Clear the screen"
  | .returnFromSubroutine => "Return from subroutine"
  | .jumpAbsolute a => "Jump to " ++ spellAddress a
  | .callSubroutine a => "Call subroutine at " ++ spellAddress a
  | .skipIfEqualValue x v => "Skip next instruction if " ++ spellReg x ++ " equals " ++ spellValue v
  | .skipIfNotEqualValue x v =>
    "Skip next instruction if " ++ spellReg x ++ " does not equal " ++ spellValue v
  | .skipIfEqualRegister x y => "Skip next instruction if " ++ spellReg x ++ " equals " ++ spellReg y
  | .setValue x v => "Set " ++ spellReg x ++ " to " ++ spellValue v
  | .addValue x v => "Add " ++ spellValue v ++ " to " ++ spellReg x
  | .setRegister x y => "Set " ++ spellReg x ++ " to " ++ spellReg y
  | .orRegister x y => "Set " ++ spellReg x ++ " to " ++ spellReg x ++ " OR " ++ spellReg y
  | .andRegister x y => "Set " ++ spellReg x ++ " to " ++ spellReg x ++ " AND " ++ spellReg y
  | .xorRegister x y => "Set " ++ spellReg x ++ " to " ++ spellReg x ++ " XOR " ++ spellReg y
  | .addRegister x y => "Add " ++ spellReg y ++ " to " ++ spellReg x ++ " with carry in VF"
  | .subtractYFromX x y =>
    "Subtract " ++ spellReg y ++ " from " ++ spellReg x ++ " with borrow in VF"
  | .shiftRight x y =>
    "Shift " ++ spellReg x ++ " right by one (second operand " ++ spellReg y ++ " ignored)"
  | .subtractXFromY x y =>
    "Set " ++ spellReg x ++ " to " ++ spellReg y ++ " minus " ++ spellReg x ++ " with borrow in VF"
  | .shiftLeft x y =>
    "Shift " ++ spellReg x ++ " left by one (second operand " ++ spellReg y ++ " ignored)"
  | .skipIfNotEqualRegister x y =>
    "Skip next instruction if " ++ spellReg x ++ " does not equal " ++ spellReg y
  | .setIndex a => "Set I to " ++ spellAddress a
  | .jumpRelative a => "Jump to " ++ spellAddress a ++ " plus V0"
  | .andRandom x v => "Set " ++ spellReg x ++ " to a random byte AND " ++ spellValue v
  | .draw x y n =>
    "Draw " ++ spellRows n ++ " rows at column " ++ spellReg x ++ ", row " ++ spellReg y
  | .skipIfKeyPressed x => "Skip next instruction if the key in " ++ spellReg x ++ " is pressed"
  | .skipIfKeyNotPressed x =>
    "Skip next instruction if the key in " ++ spellReg x ++ " is not pressed"
  | .storeDelayTimer x => "Set " ++ spellReg x ++ " to the delay timer"
  | .awaitKeyPress x => "Wait for a key press and store it in " ++ spellReg x
  | .setDelayTimer x => "Set the delay timer to " ++ spellReg x
  | .setSoundTimer x => "Set the sound timer to " ++ spellReg x
  | .addIndex x => "Add " ++ spellReg x ++ " to I"
  | .setIndexFontCharacter x => "Set I to the font character for " ++ spellReg x
  | .storeBCD x => "Store the BCD digits of " ++ spellReg x ++ " at I"
  | .writeMemory x => "Write V0 through " ++ spellReg x ++ " to memory at I"
  | .readMemory x => "Read V0 through " ++ spellReg x ++ " from memory at I"

end Sys2Proof.Machine
end

