-- ==== Sys2Proof/Machine/Disassembler.lean ====
section
/-! DEFINITION. The Disassembler (`spec/48_codec_disassembler.md` rules R278 to R282): pure
functions on byte sequences, outside the running machine (rule R332). The sentence table `DESCRIBE`
and the line layout `RENDER_FORMAT` of rule R11 are arguments; their defaults are `describe` and
`lineOf`. -/

namespace Sys2Proof.Machine

/-- Rule R278: the bytes two at a time from offset 0; the first unrecognised word ends it with no
output. A trailing single byte forms no word and is ignored (rule R279). -/
def disassemble : List Byte → Except DecodeError (List Instr)
  | hi :: lo :: rest =>
    match decode (joinBytes hi lo) with
    | .error e => .error e
    | .ok i =>
      match disassemble rest with
      | .error e => .error e
      | .ok is => .ok (i :: is)
  | [_] => .ok []
  | [] => .ok []

/-- A line of the listing from its address, its raw word and its text (rule R280). -/
abbrev LineFormat := Word → Word → String → String

/-- The default `RENDER_FORMAT` (rule R281): `AAAA WWWW TEXT` and a line feed. -/
def lineOf : LineFormat := fun address word text =>
  hex 4 address.toNat ++ " " ++ hex 4 word.toNat ++ " " ++ text ++ "\n"

/-- The lines of a sequence of constructible instructions, each with its encoded word, the first at `address`, each next one 2 further, modulo 65536 (rules
R280, R281). -/
def renderLines (sentence : Instr → String) (line : LineFormat) : Word → List Instr → List String
  | _, [] => []
  | address, i :: rest =>
    line address (encodeWord i) (sentence i) :: renderLines sentence line (address + 2) rest

/-- `render` for any `DESCRIBE` and `RENDER_FORMAT` (rule R280). -/
def renderWith (sentence : Instr → String) (line : LineFormat) (is : List Instr) : String :=
  (renderLines sentence line 0 is).foldr (· ++ ·) ""

/-- `render` with the defaults of rules R277 and R281. -/
def render (is : List Instr) : String := renderWith describe lineOf is

end Sys2Proof.Machine
end

