-- ==== Sys2Proof/Machine/Outputs.lean ====
section
/-! DEFINITION. The outputs of `step cycle` (`spec/40_cycle.md` rule R126). They are functions of one
operation and are not stored (rule R18), so they stand beside the next state, not in it. -/

namespace Sys2Proof.Machine

/-- The 2048 bytes of the screen, row-major (rules R37, R326): what `snapshot` returns. -/
def State.snapshot (s : State) : List Byte :=
  (List.range 2048).map fun k => s.screen.read darkPixel k

/-- The `redraw` output of rules R123 and R126: true exactly for the two display instructions. -/
def redraws : Instr → Bool
  | .clearScreen => true
  | .draw _ _ _ => true
  | _ => false

/-- `out` of rule R120. -/
structure CycleOutput where
  screen : List Byte
  redraw : Bool
  beep : Bool
  deriving DecidableEq, Repr

/-- Rule R126: the screen after the body; `beep` is always false, since `tick timer` is its only
producer (`spec/90_conflicts.md` C7). -/
def cycleOutput (i : Instr) (after : State) : CycleOutput :=
  { screen := after.snapshot, redraw := redraws i, beep := false }

/-- `step cycle` with its outputs (rule R120). -/
def stepCycle (s : State) : Host.Outcome (State × CycleOutput) Fault Refusal :=
  match s.fetchInstr with
  | .error f => .fault f
  | .ok i =>
    match exec i s with
    | .next t => .next (t, cycleOutput i t)
    | .fault f => .fault f
    | .refused r => .refused r

end Sys2Proof.Machine
end

