-- ==== Sys2Proof/Machine/Engine.lean ====
section
/-! DEFINITION. The operations of the Interpreter Engine (`spec/00_scope.md` rule R7) as atomic
transitions of one state, and a run as any sequence of them: between two steps any number of ticks
and key events may fall (`spec/70_reset_and_hazards.md` rule R360). -/

namespace Sys2Proof.Machine

/-- The operations that act on a machine that exists. The fifth, `reset(rom)`, makes one. -/
inductive Operation where
  | stepCycle
  | tickTimer
  | setKeyState (pressed : Bool) (key : Nibble)
  | snapshot
  deriving DecidableEq, Repr

/-- What an operation returns to its caller. -/
inductive Response where
  | cycle (out : CycleOutput)
  | stopped (f : Fault)
  | refused (r : Refusal)
  | beep (b : Bool)
  | done
  | screen (bytes : List Byte)
  deriving DecidableEq, Repr

/-- Rule R7. After a fault the state is the one before the step (rules R125, R306), and the caller
may go on (rule R310). -/
def Operation.perform (o : Operation) (s : State) : State × Response :=
  match o with
  | .stepCycle =>
    match Machine.stepCycle s with
    | .next (t, out) => (t, .cycle out)
    | .fault f => (s, .stopped f)
    | .refused r => (s, .refused r)
  | .tickTimer => ((Machine.tickTimer s).1, .beep (Machine.tickTimer s).2)
  | .setKeyState pressed k => (Machine.setKeyState pressed k s, .done)
  | .snapshot => (s, .screen s.snapshot)

/-- The state after a sequence of operations, in the order they were invoked (rule R70). -/
def runOperations (ops : List Operation) (s : State) : State :=
  ops.foldl (fun t o => (o.perform t).1) s

/-- The responses of a sequence of operations, in order. -/
def responses : List Operation → State → List Response
  | [], _ => []
  | o :: rest, s => (o.perform s).2 :: responses rest (o.perform s).1

end Sys2Proof.Machine
end

