-- ==== Sys2Proof/Safety.lean ====
section
/-! DEFINITION. The terms in which claims are stated: the invariant of the machine
(`spec/10_state.md` section 8), frames, when an instruction completes (`spec/60_exceptions.md` rule
R307), the closed form of a sprite, terminal states, and states that agree but for one hidden
part. -/

namespace Sys2Proof.Machine

/-! ### The invariant -/

/-- The invariant of the machine; the widths of rule R39 are in the types. The spec's own: `pc` at
most `0x10FE` (rule R25), pixels 0 or 1 (rule R37), memory addresses at most `0xFFF` (rule R36). The
model's: that memory and the screen are lists in canonical form (DESIGN CHOICE, log entries 4 and 15),
and the bound on stack entries (DEDUCED, log entry 26), which makes the bound on `pc` hold after a
`Return`: an entry is the address after a `CallSubroutine` (rule R142) that was fetched (rule R68). -/
structure State.Inv (s : State) : Prop where
  memory_wf : Memory.wf s.memory
  screen_wf : Screen.wf s.screen
  pc_le : s.pc.toNat ≤ 0x10FE
  stack_le : ∀ k (h : k < 16), (s.stack[k]'h).toNat ≤ 0x1000

/-! ### Frames -/

/-- The parts of the state beside the general registers. -/
inductive Part where
  | index | pc | stack | delayTimer | soundTimer | keypad | latch | memory | screen | draws
  deriving DecidableEq, Repr

/-- The part is the same in both states; memory and the screen byte by byte. -/
def Part.same (s t : State) : Part → Prop
  | .index => t.I = s.I
  | .pc => t.pc = s.pc
  | .stack => t.sp = s.sp ∧ t.stack = s.stack
  | .delayTimer => t.DT = s.DT
  | .soundTimer => t.ST = s.ST
  | .keypad => t.key = s.key
  | .latch => t.latch = s.latch
  | .memory => ∀ a, t.byteAt a = s.byteAt a
  | .screen => ∀ r c, t.px r c = s.px r c
  | .draws => t.draws = s.draws

/-- From `s` to `t` every register but those of `regs`, and every part but those of `parts`, is
unchanged. -/
structure Frame (regs : List Nibble) (parts : List Part) (s t : State) : Prop where
  regs_same : ∀ k, k ∉ regs → t.reg k = s.reg k
  parts_same : ∀ p, p ∉ parts → p.same s t

/-! ### Completion -/

/-- Rule R307: when the variant raises nothing at execution. -/
def canExecute (s : State) : Instr → Prop
  | .callSubroutine _ => s.sp.val < 16
  | .returnFromSubroutine => s.sp.val ≠ 0
  | .skipIfKeyPressed x => (s.reg x).toNat ≤ 15
  | .skipIfKeyNotPressed x => (s.reg x).toNat ≤ 15
  | .setIndexFontCharacter x => (s.reg x).toNat ≤ 15
  | .draw _ _ rows => rows = 0 ∨ s.I.toNat + rows.toNat ≤ 0x1000
  | .storeBCD _ => s.I.toNat + 2 ≤ 0xFFF
  | .writeMemory x => s.I.toNat + x.toNat ≤ 0xFFF
  | .readMemory x => s.I.toNat + x.toNat ≤ 0xFFF
  | _ => True

/-- How many bytes a variant accesses at `I` and above: the `m` of rule R303, 0 for a variant that
accesses none. -/
def accessLength : Instr → Nat
  | .draw _ _ rows => rows.toNat
  | .storeBCD _ => 3
  | .writeMemory x => x.toNat + 1
  | .readMemory x => x.toNat + 1
  | _ => 0

/-- The registers an instruction names as destination (rule R35), beside the flag. -/
def destinations : Instr → List Nibble
  | .setValue x _ => [x]
  | .addValue x _ => [x]
  | .setRegister x _ => [x]
  | .orRegister x _ => [x]
  | .andRegister x _ => [x]
  | .xorRegister x _ => [x]
  | .addRegister x _ => [x]
  | .subtractYFromX x _ => [x]
  | .subtractXFromY x _ => [x]
  | .shiftRight x _ => [x]
  | .shiftLeft x _ => [x]
  | .andRandom x _ => [x]
  | .storeDelayTimer x => [x]
  | .awaitKeyPress x => [x]
  | .readMemory x => (List.range (x.toNat + 1)).map (BitVec.ofNat 4)
  | _ => []

/-- The seven variants of rule R26 that write `VF` as a flag. -/
def writesFlag (i : Instr) : Prop :=
  i.mnemonic ∈ ["AddRegister", "SubtractYFromX", "SubtractXFromY", "ShiftRight", "ShiftLeft",
    "AddIndex", "Draw"]

/-! ### Sprites -/

/-- The closed form of rule R232: whether the sprite of `rows` bytes at `memory[I]`, drawn with its
origin at column `vx` and row `vy`, has a set bit on the pixel at row `r`, column `c`. -/
def spriteCovers (s : State) (vx vy rows r c : Nat) : Bool :=
  let dr := (r + 32 - vy % 32) % 32
  let dc := (c + 64 - vx % 64) % 64
  decide (dr < rows) && (decide (dc < 8) && (s.byteAt (s.I.toNat + dr)).getLsbD (7 - dc))

/-- The origin coordinate that `Draw` takes from register `x` (rule R232): `VF` has been cleared
when it is sampled. -/
def drawOrigin (s : State) (x : Nibble) : Nat := if x = 0xF then 0 else (s.reg x).toNat

/-! ### Stores and fetches -/

/-- Rule R74 for a store instruction that leads from `s` to `t` and leaves memory as `after`: it goes
on to the next word, every fetch reads the stored bytes, and the very next step executes them. -/
structure StoreSeen (after : Nat → Byte) (s t : State) : Prop where
  goes_on : t.pc = s.pc + 2
  fetched : ∀ a, a ≤ 0xFFE → t.fetch16 a = .ok (joinBytes (after a) (after (a + 1)))
  executed : ∀ i, s.pc.toNat ≤ 0xFFC →
    decode (joinBytes (after (s.pc.toNat + 2)) (after (s.pc.toNat + 3))) = .ok i →
    step t = exec i t

/-! ### Runs -/

/-- Rule R365: `Fetch16(pc)` decodes to `JumpAbsolute(pc)`. -/
def State.terminal (s : State) : Prop :=
  ∃ address, s.fetchInstr = .ok (.jumpAbsolute address) ∧ address.toNat = s.pc.toNat

/-- A run of operations that meets no fault. -/
def faultFree (ops : List Operation) (s : State) : Prop :=
  ∀ f, Response.stopped f ∉ responses ops s

/-- Two outcomes of the same kind: next states that `R` relates, or the same fault or refusal. -/
def alike (R : State → State → Prop) : Result → Result → Prop
  | .next s, .next t => R s t
  | .fault f, .fault g => f = g
  | .refused q, .refused r => q = r
  | _, _ => False

/-- The states differ at most in stack entries that are not in use (rule R29). -/
def sameButDeadStack (s t : State) : Prop :=
  t = { s with stack := t.stack } ∧
    ∀ k (h : k < 16), k < s.sp.val → t.stack[k]'h = s.stack[k]'h

/-- The states differ at most in the sound timer. -/
def sameButSoundTimer (s t : State) : Prop := t = { s with ST := t.ST }

end Sys2Proof.Machine
end

