-- ==== Sys2Proof/Certificates/Slice0/Obligations.lean ====
section
/-! DEFINITION. The statements for the provers. Each docstring names the rule or section of `spec/`
it formalises, and says where it rests on a decision of the spec (`D<n>`,
`spec/92_eei_decisions.md`) or on a choice of the model (log entry `<n>`). -/

open Sys2Proof Sys2Proof.Machine

/-! ### The codec -/

/-- Rule R271, all its words: the four that decode, and every word of group `8` with an unsupported
low nibble. -/
def Obligations.DecodeGivesTheExamplesOfTheSource : Prop :=
  decode 0x00E0 = .ok .clearScreen ∧
  decode 0x00EE = .ok .returnFromSubroutine ∧
  decode 0x1ABC = .ok (.jumpAbsolute 0xABC) ∧
  decode 0x8AB4 = .ok (.addRegister 0xA 0xB) ∧
  ∀ x y n : Nibble, n ∈ [0x8, 0x9, 0xA, 0xB, 0xC, 0xD, 0xF] →
    decode (0x8#4 ++ x ++ y ++ n) = .error (.unrecognizedOpcode (0x8#4 ++ x ++ y ++ n))

/-- `spec/95_test_vectors.md` section 5.1: words of every family, written out from the opcode map
(rule R100, general knowledge where rule R102 does not pin the row). -/
def Obligations.DecodeGivesWrittenOutWordsOfEachFamily : Prop :=
  decode 0x0000 = .ok (.callMachineLanguageSubroutine 0x000) ∧
  decode 0x00E1 = .ok (.callMachineLanguageSubroutine 0x0E1) ∧
  decode 0x5AB0 = .ok (.skipIfEqualRegister 0xA 0xB) ∧
  decode 0x7F00 = .ok (.addValue 0xF 0x00) ∧
  decode 0x8ABE = .ok (.shiftLeft 0xA 0xB) ∧
  decode 0xBFFF = .ok (.jumpRelative 0xFFF) ∧
  decode 0xCFFF = .ok (.andRandom 0xF 0xFF) ∧
  decode 0xD12F = .ok (.draw 1 2 15) ∧
  decode 0xEAA1 = .ok (.skipIfKeyNotPressed 0xA) ∧
  decode 0xFA0A = .ok (.awaitKeyPress 0xA) ∧
  decode 0xFA33 = .ok (.storeBCD 0xA) ∧
  decode 0x5AB1 = .error (.unrecognizedOpcode 0x5AB1) ∧
  decode 0xFA75 = .error (.unrecognizedOpcode 0xFA75)

/-- Rule R101, whole: group `0` is matched most specific first and accepts every word; outside it no
word selects two rows of the opcode map. -/
def Obligations.GroupZeroIsMatchedMostSpecificFirst : Prop :=
  (∀ a : Addr, decode (0x0#4 ++ a) =
    .ok (if a = 0x0E0 then .clearScreen else if a = 0x0EE then .returnFromSubroutine
      else .callMachineLanguageSubroutine a)) ∧
  ∀ q ∈ opcodeTable, ∀ r ∈ opcodeTable, q ≠ r → groupOf q.value ≠ 0 → groupOf r.value ≠ 0 →
    ∀ w, ¬(q.selects w ∧ r.selects w)

/-- Rules R273 (a) and R274: every well-formed instruction (rule R105), with every operand at every
value, has an encoding, and decoding it gives the instruction back; the two ill-formed values have
none (decision D7; that `encode` refuses them is one of the two ways R274 offers, log entry 19). -/
def Obligations.EveryWellFormedInstructionRoundTrips : Prop :=
  ∀ i : Instr, (i.wf → ∃ w, encode i = some w ∧ decode w = .ok i) ∧ (¬i.wf → encode i = none)

/-- Rule R273 (b) (an inference of the spec): what decodes encodes back to the same word, and is
well formed. -/
def Obligations.EveryDecodedWordEncodesBack : Prop :=
  ∀ (w : Word) (i : Instr), decode w = .ok i → encode i = some w ∧ i.wf

/-- Rules R100, R103 and R270 (decision D3 for groups `5` and `9`): a word decodes exactly when it
selects a row of the opcode map; the instruction is that of a row it selects; and the failure
carries the word. -/
def Obligations.DecodeAcceptsExactlyTheOpcodeMap : Prop :=
  ∀ w : Word,
    ((∃ i, decode w = .ok i) ↔ ∃ row ∈ opcodeTable, row.selects w) ∧
    (∀ i, decode w = .ok i → ∃ row ∈ opcodeTable, row.mnemonic = i.mnemonic ∧ row.selects w) ∧
    ∀ e, decode w = .error e → e = .unrecognizedOpcode w

/-! ### The step -/

/-- Rules R62, R66, R68 and R121 (decisions D11, D12 for the fault): the word at `pc` has its
high-order byte at the lower address; a fetch past the end of memory raises, naming the lowest
missing address. -/
def Obligations.FetchReadsTheBigEndianWord : Prop :=
  ∀ (s : State) (a : Nat),
    (a ≤ 0xFFE → ∃ w, s.fetch16 a = .ok w ∧
      w.toNat = (s.byteAt a).toNat * 256 + (s.byteAt (a + 1)).toNat) ∧
    (0xFFF ≤ a → s.fetch16 a = .error (.memoryOutOfRange (max a 0x1000)))

/-- Rules R120 to R123: when the two bytes at `pc` decode to an instruction, the step is that
instruction's execution and nothing else. -/
def Obligations.StepRunsTheDecodedInstruction : Prop :=
  ∀ (s : State) (i : Instr), s.pc.toNat ≤ 0xFFE →
    decode (joinBytes (s.byteAt s.pc.toNat) (s.byteAt (s.pc.toNat + 1))) = .ok i →
    step s = exec i s

/-- Rules R121, R122, R300 and R308 (decisions D12, D36): the fetch's fault comes first, then the
decoder's, with the fetched word. -/
def Obligations.StepFaultsInStageOrder : Prop :=
  ∀ s : State,
    (0xFFF ≤ s.pc.toNat → step s = .fault (.memoryOutOfRange (max s.pc.toNat 0x1000))) ∧
    ∀ w, s.fetch16 s.pc.toNat = .ok w → (∀ i, decode w ≠ .ok i) →
      step s = .fault (.unrecognizedOpcode w)

/-- Rule R15: every step is a next state or one of the six faults; none is refused. -/
def Obligations.NoStepIsRefused : Prop :=
  (∀ (i : Instr) (s : State) (r : Refusal), exec i s ≠ .refused r) ∧
  ∀ (s : State) (r : Refusal), step s ≠ .refused r

/-- Rules R123 and R124, with the target and the condition that each variant's own rule gives (rules
R140 to R172 and R256; the spec's general knowledge, log entry 5): what `pc` is after each variant.
Additions are modulo 65536 (decision D10, log entry 14). -/
def Obligations.ProgramCounterFollowsTheDispositions : Prop :=
  ∀ (i : Instr) (s t : State), exec i s = .next t →
    match i with
    | .jumpAbsolute a => t.pc.toNat = a.toNat
    | .callSubroutine a => t.pc.toNat = a.toNat
    | .returnFromSubroutine => t.pc = s.top
    | .jumpRelative a => t.pc.toNat = (a.toNat + (s.reg 0).toNat) % 65536
    | .skipIfEqualValue x v => t.pc = if s.reg x = v then s.pc + 4 else s.pc + 2
    | .skipIfNotEqualValue x v => t.pc = if s.reg x ≠ v then s.pc + 4 else s.pc + 2
    | .skipIfEqualRegister x y => t.pc = if s.reg x = s.reg y then s.pc + 4 else s.pc + 2
    | .skipIfNotEqualRegister x y => t.pc = if s.reg x ≠ s.reg y then s.pc + 4 else s.pc + 2
    | .skipIfKeyPressed x =>
      t.pc = if s.keyHeld ((s.reg x).setWidth 4) then s.pc + 4 else s.pc + 2
    | .skipIfKeyNotPressed x =>
      t.pc = if s.keyHeld ((s.reg x).setWidth 4) then s.pc + 2 else s.pc + 4
    | .awaitKeyPress _ => t.pc = if s.latch = none then s.pc else s.pc + 2
    | _ => t.pc = s.pc + 2

/-! ### Control flow -/

/-- Rule R140: `pc` becomes the address, nothing else changes, and a jump to itself changes nothing
at all. -/
def Obligations.JumpAbsoluteGoesToItsAddress : Prop :=
  ∀ (a : Addr) (s : State),
    (∃ t, exec (.jumpAbsolute a) s = .next t ∧ t.pc.toNat = a.toNat ∧ Frame [] [.pc] s t) ∧
    (a.toNat = s.pc.toNat → exec (.jumpAbsolute a) s = .next s)

/-- Rules R142 and R301 (decisions D14, D16): the address after the call is pushed and `pc` becomes
the address; with 16 entries in use the call raises. -/
def Obligations.CallPushesTheReturnAddress : Prop :=
  ∀ (a : Addr) (s : State),
    (s.sp.val < 16 → ∃ t, exec (.callSubroutine a) s = .next t ∧ t.pc.toNat = a.toNat ∧
      t.sp.val = s.sp.val + 1 ∧
      (∀ k (h : k < 16), t.stack[k]'h = if k = s.sp.val then s.pc + 2 else s.stack[k]'h) ∧
      Frame [] [.pc, .stack] s t) ∧
    (s.sp.val = 16 → exec (.callSubroutine a) s = .fault .stackOverflow)

/-- Rules R144 and R302 (decision D15): `pc` becomes the popped entry, with no further advance, and
the entry keeps its value; with no entry in use the return raises. -/
def Obligations.ReturnPopsTheReturnAddress : Prop :=
  ∀ s : State,
    (∀ n (h : n < 16), s.sp.val = n + 1 → ∃ t, exec .returnFromSubroutine s = .next t ∧
      t.pc = s.stack[n]'h ∧ t.sp.val = n ∧ t.stack = s.stack ∧ Frame [] [.pc, .stack] s t) ∧
    (s.sp.val = 0 → exec .returnFromSubroutine s = .fault .stackUnderflow)

/-- Rules R142 and R144 together: a call and then a return is back at the instruction after the
call, with `sp` as before. -/
def Obligations.ReturnUndoesCall : Prop :=
  ∀ (a : Addr) (s : State), s.sp.val < 16 →
    ∃ t u, exec (.callSubroutine a) s = .next t ∧ exec .returnFromSubroutine t = .next u ∧
      u.pc = s.pc + 2 ∧ u.sp = s.sp ∧ sameButDeadStack { s with pc := s.pc + 2 } u

/-- Rule R146 (decision D10): `address + V[0]`, not masked to 12 bits and never reduced. -/
def Obligations.JumpRelativeAddsRegisterZero : Prop :=
  ∀ (a : Addr) (s : State), ∃ t, exec (.jumpRelative a) s = .next t ∧
    t.pc.toNat = a.toNat + (s.reg 0).toNat ∧ Frame [] [.pc] s t

/-- Rule R148: the machine-language call is a no-op whatever its address. -/
def Obligations.MachineLanguageCallDoesNothing : Prop :=
  ∀ (a : Addr) (s : State), ∃ t, exec (.callMachineLanguageSubroutine a) s = .next t ∧
    t.pc = s.pc + 2 ∧ Frame [] [.pc] s t

/-! ### Skips -/

/-- Rules R160, R162, R164 and R166, with their encodings: each skips exactly when its condition
holds (the spec's general knowledge, rule R159, log entry 5) and changes nothing but `pc`. That a low
nibble other than 0 decodes to nothing is decision D3 (rule R103, log entry 7). -/
def Obligations.ValueAndRegisterSkipsTestTheirCondition : Prop :=
  ∀ (x y : Nibble) (v : Byte) (s : State),
    decode (0x3#4 ++ x ++ v) = .ok (.skipIfEqualValue x v) ∧
    (∃ t, exec (.skipIfEqualValue x v) s = .next t ∧ Frame [] [.pc] s t ∧
      t.pc = if s.reg x = v then s.pc + 4 else s.pc + 2) ∧
    decode (0x4#4 ++ x ++ v) = .ok (.skipIfNotEqualValue x v) ∧
    (∃ t, exec (.skipIfNotEqualValue x v) s = .next t ∧ Frame [] [.pc] s t ∧
      t.pc = if s.reg x ≠ v then s.pc + 4 else s.pc + 2) ∧
    decode (0x5#4 ++ x ++ y ++ 0x0#4) = .ok (.skipIfEqualRegister x y) ∧
    (∃ t, exec (.skipIfEqualRegister x y) s = .next t ∧ Frame [] [.pc] s t ∧
      t.pc = if s.reg x = s.reg y then s.pc + 4 else s.pc + 2) ∧
    decode (0x9#4 ++ x ++ y ++ 0x0#4) = .ok (.skipIfNotEqualRegister x y) ∧
    (∃ t, exec (.skipIfNotEqualRegister x y) s = .next t ∧ Frame [] [.pc] s t ∧
      t.pc = if s.reg x ≠ s.reg y then s.pc + 4 else s.pc + 2) ∧
    ∀ n : Nibble, n ≠ 0 → (∀ i, decode (0x5#4 ++ x ++ y ++ n) ≠ .ok i) ∧
      ∀ i, decode (0x9#4 ++ x ++ y ++ n) ≠ .ok i

/-- Rules R170, R172 and R304 (decision D17): the held state of the key numbered `V[x]`; above 15
both raise. -/
def Obligations.KeySkipsTestTheHeldKey : Prop :=
  ∀ (x : Nibble) (s : State),
    (∀ k : Nibble, (s.reg x).toNat = k.toNat →
      (∃ t, exec (.skipIfKeyPressed x) s = .next t ∧ Frame [] [.pc] s t ∧
        t.pc = if s.keyHeld k = true then s.pc + 4 else s.pc + 2) ∧
      (∃ t, exec (.skipIfKeyNotPressed x) s = .next t ∧ Frame [] [.pc] s t ∧
        t.pc = if s.keyHeld k = false then s.pc + 4 else s.pc + 2)) ∧
    ((s.reg x).toNat > 15 →
      exec (.skipIfKeyPressed x) s = .fault (.keyOutOfRange (s.reg x)) ∧
      exec (.skipIfKeyNotPressed x) s = .fault (.keyOutOfRange (s.reg x)))

/-! ### Register transfer, logic, arithmetic -/

/-- Rules R180 to R188 (decision D33 for the flag that is not written): the destination gets the
value, modulo 256, and no other register changes; `VF` changes only as the destination. -/
def Obligations.LoadsAndLogicWriteOnlyTheirDestination : Prop :=
  ∀ (x y : Nibble) (v : Byte) (s : State),
    (∃ t, exec (.setValue x v) s = .next t ∧ t.reg x = v ∧ t.pc = s.pc + 2 ∧
      Frame [x] [.pc] s t) ∧
    (∃ t, exec (.addValue x v) s = .next t ∧
      (t.reg x).toNat = ((s.reg x).toNat + v.toNat) % 256 ∧ t.pc = s.pc + 2 ∧
      Frame [x] [.pc] s t) ∧
    (∃ t, exec (.setRegister x y) s = .next t ∧ t.reg x = s.reg y ∧ t.pc = s.pc + 2 ∧
      Frame [x] [.pc] s t) ∧
    (∃ t, exec (.orRegister x y) s = .next t ∧
      (∀ n, (t.reg x).getLsbD n = ((s.reg x).getLsbD n || (s.reg y).getLsbD n)) ∧
      t.pc = s.pc + 2 ∧ Frame [x] [.pc] s t) ∧
    (∃ t, exec (.andRegister x y) s = .next t ∧
      (∀ n, (t.reg x).getLsbD n = ((s.reg x).getLsbD n && (s.reg y).getLsbD n)) ∧
      t.pc = s.pc + 2 ∧ Frame [x] [.pc] s t) ∧
    ∃ t, exec (.xorRegister x y) s = .next t ∧
      (∀ n, (t.reg x).getLsbD n = ((s.reg x).getLsbD n ^^ (s.reg y).getLsbD n)) ∧
      t.pc = s.pc + 2 ∧ Frame [x] [.pc] s t

/-- Rule R190, with all its aliasing cases (decision D8): the carry, and the sum modulo 256 of the
operands as the carry's write has left them. -/
def Obligations.AddRegisterAddsWithCarry : Prop :=
  ∀ (x y : Nibble) (s : State) (a b c : Nat),
    a = (s.reg x).toNat → b = (s.reg y).toNat → c = (if a + b > 255 then 1 else 0) →
    ∃ t, exec (.addRegister x y) s = .next t ∧ t.pc = s.pc + 2 ∧ Frame [x, 0xF] [.pc] s t ∧
      (x ≠ 0xF → y ≠ 0xF → (t.reg x).toNat = (a + b) % 256 ∧ (t.reg 0xF).toNat = c) ∧
      (x = 0xF → y ≠ 0xF → (t.reg 0xF).toNat = (c + b) % 256) ∧
      (x ≠ 0xF → y = 0xF → (t.reg x).toNat = (a + c) % 256 ∧ (t.reg 0xF).toNat = c) ∧
      (x = 0xF → y = 0xF → (t.reg 0xF).toNat = 2 * c)

/-- Rule R192, with all its aliasing cases (decision D8): NOT borrow, and the difference. -/
def Obligations.SubtractYFromXSubtractsWithNotBorrow : Prop :=
  ∀ (x y : Nibble) (s : State) (a b f : Nat),
    a = (s.reg x).toNat → b = (s.reg y).toNat → f = (if a < b then 0 else 1) →
    ∃ t, exec (.subtractYFromX x y) s = .next t ∧ t.pc = s.pc + 2 ∧ Frame [x, 0xF] [.pc] s t ∧
      (x ≠ 0xF → y ≠ 0xF → (t.reg x).toNat = (a + 256 - b) % 256 ∧ (t.reg 0xF).toNat = f) ∧
      (x = 0xF → y ≠ 0xF → (t.reg 0xF).toNat = (f + 256 - b) % 256) ∧
      (x ≠ 0xF → y = 0xF → (t.reg x).toNat = (a + 256 - f) % 256 ∧ (t.reg 0xF).toNat = f) ∧
      (x = 0xF → y = 0xF → (t.reg 0xF).toNat = 0)

/-- Rule R196, with all its aliasing cases (decision D8). -/
def Obligations.SubtractXFromYSubtractsWithNotBorrow : Prop :=
  ∀ (x y : Nibble) (s : State) (a b f : Nat),
    a = (s.reg x).toNat → b = (s.reg y).toNat → f = (if b < a then 0 else 1) →
    ∃ t, exec (.subtractXFromY x y) s = .next t ∧ t.pc = s.pc + 2 ∧ Frame [x, 0xF] [.pc] s t ∧
      (x ≠ 0xF → y ≠ 0xF → (t.reg x).toNat = (b + 256 - a) % 256 ∧ (t.reg 0xF).toNat = f) ∧
      (x = 0xF → y ≠ 0xF → (t.reg 0xF).toNat = (b + 256 - f) % 256) ∧
      (x ≠ 0xF → y = 0xF → (t.reg x).toNat = (f + 256 - a) % 256 ∧ (t.reg 0xF).toNat = f) ∧
      (x = 0xF → y = 0xF → (t.reg 0xF).toNat = 0)

/-- Rules R194 and R198, with their aliasing cases (decision D8): the bit shifted out, and the
operand `V[x]` shifted by one; `y` has no part in it. -/
def Obligations.ShiftsMoveOneBitIntoTheFlag : Prop :=
  ∀ (x y : Nibble) (s : State) (a : Nat), a = (s.reg x).toNat →
    (∃ t, exec (.shiftRight x y) s = .next t ∧ t.pc = s.pc + 2 ∧ Frame [x, 0xF] [.pc] s t ∧
      (x ≠ 0xF → (t.reg x).toNat = a / 2 ∧ (t.reg 0xF).toNat = a % 2) ∧
      (x = 0xF → (t.reg 0xF).toNat = 0)) ∧
    ∃ t, exec (.shiftLeft x y) s = .next t ∧ t.pc = s.pc + 2 ∧ Frame [x, 0xF] [.pc] s t ∧
      (x ≠ 0xF → (t.reg x).toNat = 2 * a % 256 ∧ (t.reg 0xF).toNat = a / 128) ∧
      (x = 0xF → (t.reg 0xF).toNat = 2 * (a / 128))

/-- Rules R200 and R327 (decision D25; log entry 1): for every byte the environment may supply, and
for the one drawn from the source, which counts one draw. Nothing is said of the byte's value. -/
def Obligations.AndRandomMasksTheSuppliedByte : Prop :=
  ∀ (x : Nibble) (v : Byte) (s : State),
    (∀ rnd : Byte, ∃ t, andRandomWith rnd x v s = .next t ∧ t.reg x = rnd &&& v ∧
      t.draws = s.draws + 1 ∧ t.pc = s.pc + 2 ∧ Frame [x] [.pc, .draws] s t) ∧
    ∃ t, exec (.andRandom x v) s = .next t ∧ t.reg x = Config.randomByte s.draws &&& v ∧
      t.draws = s.draws + 1 ∧ t.pc = s.pc + 2 ∧ Frame [x] [.pc, .draws] s t

/-! ### Index register and memory -/

/-- Rules R210 and R214 (decisions D5, D18): the address, zero-extended; the glyph of the digit in
`V[x]` at `5 * d`, and above 15 a fault. -/
def Obligations.IndexLoadsSetOnlyTheIndex : Prop :=
  ∀ (a : Addr) (x : Nibble) (s : State),
    (∃ t, exec (.setIndex a) s = .next t ∧ t.I.toNat = a.toNat ∧ t.pc = s.pc + 2 ∧
      Frame [] [.pc, .index] s t) ∧
    ((s.reg x).toNat ≤ 15 → ∃ t, exec (.setIndexFontCharacter x) s = .next t ∧
      t.I.toNat = 5 * (s.reg x).toNat ∧ t.pc = s.pc + 2 ∧ Frame [] [.pc, .index] s t) ∧
    ((s.reg x).toNat > 15 →
      exec (.setIndexFontCharacter x) s = .fault (.fontDigitOutOfRange (s.reg x)))

/-- Rule R212 (decisions D8, D10): the flag is 1 when the sum of naturals leaves memory; the sum is
modulo 65536 and not masked to 12 bits; with `x = 0xF` it is the flag that is added. -/
def Obligations.AddIndexAddsAndFlagsLeavingMemory : Prop :=
  ∀ (x : Nibble) (s : State) (i a c : Nat),
    i = s.I.toNat → a = (s.reg x).toNat → c = (if i + a > 0xFFF then 1 else 0) →
    ∃ t, exec (.addIndex x) s = .next t ∧ t.pc = s.pc + 2 ∧ (t.reg 0xF).toNat = c ∧
      Frame [0xF] [.pc, .index] s t ∧
      (x ≠ 0xF → t.I.toNat = (i + a) % 65536) ∧
      (x = 0xF → t.I.toNat = (i + c) % 65536)

/-- Rule R220 (decision D11 for the fault): the three decimal digits of `V[x]` at `I`, `I+1`,
`I+2`, every other byte as before. -/
def Obligations.StoreBCDWritesThreeDigits : Prop :=
  ∀ (x : Nibble) (s : State),
    (s.I.toNat + 2 ≤ 0xFFF → ∃ t, exec (.storeBCD x) s = .next t ∧ t.pc = s.pc + 2 ∧
      (t.byteAt s.I.toNat).toNat = (s.reg x).toNat / 100 ∧
      (t.byteAt (s.I.toNat + 1)).toNat = (s.reg x).toNat / 10 % 10 ∧
      (t.byteAt (s.I.toNat + 2)).toNat = (s.reg x).toNat % 10 ∧
      (∀ a, a < s.I.toNat ∨ s.I.toNat + 2 < a → t.byteAt a = s.byteAt a) ∧
      Frame [] [.pc, .memory] s t) ∧
    (s.I.toNat + 2 > 0xFFF →
      exec (.storeBCD x) s = .fault (.memoryOutOfRange (max s.I.toNat 0x1000)))

/-- Rule R222 (decisions D11, D26): register `k` at `I + k` for `k` up to `x`, every other byte and
`I` as before. -/
def Obligations.WriteMemoryStoresTheRegisters : Prop :=
  ∀ (x : Nibble) (s : State),
    (s.I.toNat + x.toNat ≤ 0xFFF → ∃ t, exec (.writeMemory x) s = .next t ∧ t.pc = s.pc + 2 ∧
      (∀ k : Nibble, k.toNat ≤ x.toNat → t.byteAt (s.I.toNat + k.toNat) = s.reg k) ∧
      (∀ a, a < s.I.toNat ∨ s.I.toNat + x.toNat < a → t.byteAt a = s.byteAt a) ∧
      Frame [] [.pc, .memory] s t) ∧
    (s.I.toNat + x.toNat > 0xFFF →
      exec (.writeMemory x) s = .fault (.memoryOutOfRange (max s.I.toNat 0x1000)))

/-- Rule R224 (decisions D11, D26): `V[k]` gets the byte at `I + k` for `k` up to `x`; the registers
above, memory and `I` as before. -/
def Obligations.ReadMemoryLoadsTheRegisters : Prop :=
  ∀ (x : Nibble) (s : State),
    (s.I.toNat + x.toNat ≤ 0xFFF → ∃ t, exec (.readMemory x) s = .next t ∧ t.pc = s.pc + 2 ∧
      (∀ k : Nibble, t.reg k =
        if k.toNat ≤ x.toNat then s.byteAt (s.I.toNat + k.toNat) else s.reg k) ∧
      Frame (destinations (.readMemory x)) [.pc] s t) ∧
    (s.I.toNat + x.toNat > 0xFFF →
      exec (.readMemory x) s = .fault (.memoryOutOfRange (max s.I.toNat 0x1000)))

/-- Rule R74 (an inference of the spec; decision D27), for both instructions that store and however
many bytes of the next word they change: `after` is memory as the store leaves it (rules R220, R222),
every later fetch reads it, and the very next step executes it. -/
def Obligations.StoresAreSeenByTheNextFetch : Prop :=
  ∀ (x : Nibble) (s : State) (after : Nat → Byte),
    (s.I.toNat + x.toNat ≤ 0xFFF →
      (∀ k : Nibble, k.toNat ≤ x.toNat → after (s.I.toNat + k.toNat) = s.reg k) →
      (∀ a, a < s.I.toNat ∨ s.I.toNat + x.toNat < a → after a = s.byteAt a) →
      ∃ t, exec (.writeMemory x) s = .next t ∧ StoreSeen after s t) ∧
    (s.I.toNat + 2 ≤ 0xFFF →
      (after s.I.toNat).toNat = (s.reg x).toNat / 100 →
      (after (s.I.toNat + 1)).toNat = (s.reg x).toNat / 10 % 10 →
      (after (s.I.toNat + 2)).toNat = (s.reg x).toNat % 10 →
      (∀ a, a < s.I.toNat ∨ s.I.toNat + 2 < a → after a = s.byteAt a) →
      ∃ t, exec (.storeBCD x) s = .next t ∧ StoreSeen after s t)

/-! ### Display -/

/-- Rule R230: every pixel is 0, nothing else changes. -/
def Obligations.ClearScreenDarkensEveryPixel : Prop :=
  ∀ s : State, ∃ t, exec .clearScreen s = .next t ∧ (∀ r c, t.px r c = 0) ∧ t.pc = s.pc + 2 ∧
    Frame [] [.pc, .screen] s t

/-- Rule R232 in closed form (decisions D9, D11): every pixel is XORed with the sprite bit on it,
each coordinate wrapping on its own; the flag is 1 exactly when a set bit landed on a pixel that was
1; a sprite that runs past the end of memory raises. -/
def Obligations.DrawXorsTheSpriteAndFlagsCollision : Prop :=
  ∀ (x y rows : Nibble) (s : State) (covers : Nat → Nat → Bool),
    (∀ r c, covers r c = spriteCovers s (drawOrigin s x) (drawOrigin s y) rows.toNat r c) →
    (rows = 0 ∨ s.I.toNat + rows.toNat ≤ 0x1000 →
      ∃ t, exec (.draw x y rows) s = .next t ∧ t.pc = s.pc + 2 ∧
        Frame [0xF] [.pc, .screen] s t ∧
        (∀ r c, r < 32 → c < 64 → t.px r c = s.px r c ^^^ (if covers r c then 1 else 0)) ∧
        (t.reg 0xF = 1 ∧ (∃ r c, r < 32 ∧ c < 64 ∧ covers r c ∧ s.px r c = 1) ∨
          t.reg 0xF = 0 ∧ ∀ r c, r < 32 → c < 64 → covers r c → s.px r c ≠ 1)) ∧
    (rows ≠ 0 → s.I.toNat + rows.toNat > 0x1000 →
      exec (.draw x y rows) s = .fault (.memoryOutOfRange (max s.I.toNat 0x1000)))

/-- Rule R232, its example for every sprite: drawing twice restores the screen, and on a screen of
0s and 1s (rule R37), listed in the model's canonical form (DESIGN CHOICE, log entry 15), the second
draw collides exactly when a set bit fell on a dark pixel the first time. -/
def Obligations.DrawingTwiceRestoresTheScreen : Prop :=
  ∀ (x y rows : Nibble) (s : State), canExecute s (.draw x y rows) → Screen.wf s.screen →
    ∃ t u, exec (.draw x y rows) s = .next t ∧ exec (.draw x y rows) t = .next u ∧
      (∀ r c, r < 32 → c < 64 → u.px r c = s.px r c) ∧
      (u.reg 0xF = 1 ↔ ∃ r c, r < 32 ∧ c < 64 ∧ s.px r c = 0 ∧
        spriteCovers s (drawOrigin s x) (drawOrigin s y) rows.toNat r c)

/-! ### Timers and keypad -/

/-- Rules R250, R252 and R254: the three timer moves. -/
def Obligations.TimerMovesCopyOneByte : Prop :=
  ∀ (x : Nibble) (s : State),
    (∃ t, exec (.storeDelayTimer x) s = .next t ∧ t.reg x = s.DT ∧ t.pc = s.pc + 2 ∧
      Frame [x] [.pc] s t) ∧
    (∃ t, exec (.setDelayTimer x) s = .next t ∧ t.DT = s.reg x ∧ t.pc = s.pc + 2 ∧
      Frame [] [.pc, .delayTimer] s t) ∧
    ∃ t, exec (.setSoundTimer x) s = .next t ∧ t.ST = s.reg x ∧ t.pc = s.pc + 2 ∧
      Frame [] [.pc, .soundTimer] s t

/-- Rule R256, whole: a latched press goes to `V[x]` and is consumed; without one the step succeeds,
changes nothing, whatever keys are held, and sets no `redraw`; a press that comes at any time is
what the next execution delivers, over an older one. -/
def Obligations.AwaitKeyPressConsumesTheLatchOrHolds : Prop :=
  ∀ (x : Nibble) (s : State),
    decode (0xF#4 ++ x ++ 0x0A#8) = .ok (.awaitKeyPress x) ∧
    (∀ k, s.latch = some k → ∃ t, exec (.awaitKeyPress x) s = .next t ∧
      (t.reg x).toNat = k.toNat ∧ t.latch = none ∧ t.pc = s.pc + 2 ∧
      Frame [x] [.pc, .latch] s t) ∧
    (s.latch = none → exec (.awaitKeyPress x) s = .next s) ∧
    (s.latch = none → s.fetchInstr = .ok (.awaitKeyPress x) →
      ∃ out, stepCycle s = .next (s, out) ∧ out.redraw = false) ∧
    ∀ k, ∃ t, exec (.awaitKeyPress x) (setKeyState true k s) = .next t ∧
      (t.reg x).toNat = k.toNat ∧ t.latch = none ∧ t.pc = s.pc + 2

/-- Rule R320 (decision D35 for the pulse): one tick. -/
def Obligations.TickCountsBothTimersDown : Prop :=
  ∀ s : State,
    (tickTimer s).1.DT.toNat = s.DT.toNat - 1 ∧
    (tickTimer s).1.ST.toNat = s.ST.toNat - 1 ∧
    ((tickTimer s).2 = true ↔ s.ST.toNat = 1) ∧
    Frame [] [.delayTimer, .soundTimer] s (tickTimer s).1

/-- Rule R320 (decision D35): a sound timer of `n` beeps on the `n`-th tick, once, and is silent
after it. -/
def Obligations.SoundTimerBeepsOncePerCountdown : Prop :=
  ∀ (s : State) (n m : Nat), s.ST.toNat = n + 1 →
    responses (List.replicate (n + 1 + m) .tickTimer) s =
      List.replicate n (.beep false) ++ .beep true :: List.replicate m (.beep false)

/-- Rule R323 (decision D37): one key event. -/
def Obligations.KeyEventSetsTheKeyAndLatchesAPress : Prop :=
  ∀ (pressed : Bool) (k : Nibble) (s : State),
    (∀ j, (setKeyState pressed k s).keyHeld j = if j = k then pressed else s.keyHeld j) ∧
    (setKeyState pressed k s).latch = (if pressed then some k else s.latch) ∧
    Frame [] [.keypad, .latch] s (setKeyState pressed k s)

/-- Rules R34 and R323, last write wins: after any sequence of key events the latch holds the key
pressed last, or what it held before if none was pressed. -/
def Obligations.LatchHoldsTheLastPress : Prop :=
  ∀ (events : List (Bool × Nibble)) (s : State),
    (runOperations (events.map fun e => .setKeyState e.1 e.2) s).latch =
      match (events.filter (·.1)).getLast? with
      | some e => some e.2
      | none => s.latch

/-! ### Outputs, reset -/

/-- Rules R37, R126 and R326 (decisions D22, D23, D38): a completed step returns the screen after
it, row-major, `redraw` exactly for the two display instructions, and never a beep; its state is
that of `step`. -/
def Obligations.StepCycleReturnsItsOutputs : Prop :=
  ∀ (s t : State) (i : Instr) (out : CycleOutput),
    s.fetchInstr = .ok i → stepCycle s = .next (t, out) →
    step s = .next t ∧ out.beep = false ∧
    (out.redraw = true ↔ i.mnemonic = "ClearScreen" ∨ i.mnemonic = "Draw") ∧
    out.screen.length = 2048 ∧
    ∀ r c, r < 32 → c < 64 → out.screen[r * 64 + c]? = some (t.px r c)

/-- Rules R60, R64, R75, R340 and R341 (decisions D19, D20, D21; DOC0 gives `pc`, the font's and the
ROM's place, the spec chose the zeros, log entry 2, and took the font's bytes from general knowledge,
log entry 3; `draws` is the model's, log entry 1): the one state `reset(rom)` gives, with the sixteen
glyphs byte by byte, and none for a ROM that is too long. -/
def Obligations.ResetWithRomGivesOneState : Prop :=
  ∀ rom : List Byte,
    (rom.length ≤ 3584 → ∃ s, resetWithRom rom = .next s ∧ s.pc = 0x200 ∧
      (List.range 16).map (fun d => s.loadBytes (5 * d) 5) =
        [[0xF0, 0x90, 0x90, 0x90, 0xF0], [0x20, 0x60, 0x20, 0x20, 0x70],
         [0xF0, 0x10, 0xF0, 0x80, 0xF0], [0xF0, 0x10, 0xF0, 0x10, 0xF0],
         [0x90, 0x90, 0xF0, 0x10, 0x10], [0xF0, 0x80, 0xF0, 0x10, 0xF0],
         [0xF0, 0x80, 0xF0, 0x90, 0xF0], [0xF0, 0x10, 0x20, 0x40, 0x40],
         [0xF0, 0x90, 0xF0, 0x90, 0xF0], [0xF0, 0x90, 0xF0, 0x10, 0xF0],
         [0xF0, 0x90, 0xF0, 0x90, 0x90], [0xE0, 0x90, 0xE0, 0x90, 0xE0],
         [0xF0, 0x80, 0x80, 0x80, 0xF0], [0xE0, 0x90, 0x90, 0x90, 0xE0],
         [0xF0, 0x80, 0xF0, 0x80, 0xF0], [0xF0, 0x80, 0xF0, 0x80, 0x80]] ∧
      (∀ a, 0x050 ≤ a → a ≤ 0x1FF → s.byteAt a = 0) ∧
      (∀ a, 0x200 ≤ a → a ≤ 0xFFF → s.byteAt a = (rom[a - 0x200]?).getD 0) ∧
      (∀ k, s.reg k = 0) ∧ s.I = 0 ∧ s.sp.val = 0 ∧ (∀ k (h : k < 16), s.stack[k]'h = 0) ∧
      s.DT = 0 ∧ s.ST = 0 ∧ (∀ k, s.keyHeld k = false) ∧ s.latch = none ∧
      ∀ r c, s.px r c = 0) ∧
    (rom.length > 3584 → resetWithRom rom = .refused (.romTooLong rom.length))

/-- Rule R128: the first step of a fresh engine with an empty ROM. -/
def Obligations.FirstStepOfAnEmptyRomAdvances : Prop :=
  ∃ s t out, resetWithRom [] = .next s ∧ s.fetch16 s.pc.toNat = .ok 0x0000 ∧
    decode 0x0000 = .ok (.callMachineLanguageSubroutine 0x000) ∧
    stepCycle s = .next (t, out) ∧ t.pc = 0x202 ∧ out.redraw = false ∧
    (∀ r c, t.px r c = 0) ∧ Frame [] [.pc] s t

/-! ### Faults -/

/-- Rule R307, and the conditions of rules R142, R144, R170, R172, R214, R220, R222, R224 and R232
(decisions D11, D14, D15, D17, D18): an instruction completes exactly when its condition holds. -/
def Obligations.InstructionCompletesExactlyWhenItCan : Prop :=
  ∀ (i : Instr) (s : State), (∃ t, exec i s = .next t) ↔ canExecute s i

/-- Rule R307 (an inference of the spec), the execute rows, with rules R301 to R305 (decisions D11,
D14, D15, D17, D18; log entry 7): which variant raises which fault, exactly when, and with what
argument. -/
def Obligations.EachFaultComesFromItsInstructions : Prop :=
  ∀ (i : Instr) (s : State) (f : Fault), exec i s = .fault f ↔
    match f with
    | .unrecognizedOpcode _ => False
    | .stackOverflow => (∃ a, i = .callSubroutine a) ∧ s.sp.val = 16
    | .stackUnderflow => i = .returnFromSubroutine ∧ s.sp.val = 0
    | .memoryOutOfRange a =>
      1 ≤ accessLength i ∧ s.I.toNat + accessLength i - 1 > 0xFFF ∧ a = max s.I.toNat 0x1000
    | .keyOutOfRange v =>
      ∃ x, (i = .skipIfKeyPressed x ∨ i = .skipIfKeyNotPressed x) ∧ v = s.reg x ∧ v.toNat ≥ 16
    | .fontDigitOutOfRange v => ∃ x, i = .setIndexFontCharacter x ∧ v = s.reg x ∧ v.toNat ≥ 16

/-- Rules R125, R306 and R310 (decision D32): a fault leaves the state as it was, and no sequence of
operations cures it. -/
def Obligations.AFaultRepeatsWhateverComesBetween : Prop :=
  ∀ (s : State) (f : Fault), step s = .fault f →
    (Operation.stepCycle.perform s).1 = s ∧
    ∀ ops : List Operation, step (runOperations ops s) = .fault f

/-! ### Rules of the whole machine -/

/-- Rules R26 and R35 (an inference of the spec): the only instructions that change each piece of
state. -/
def Obligations.EachPieceOfStateHasItsWriters : Prop :=
  ∀ (i : Instr) (s t : State), exec i s = .next t →
    (∀ k, t.reg k ≠ s.reg k → k ∈ destinations i ∨ k = 0xF ∧ writesFlag i) ∧
    (t.I ≠ s.I → i.mnemonic ∈ ["SetIndex", "AddIndex", "SetIndexFontCharacter"]) ∧
    (t.sp ≠ s.sp ∨ t.stack ≠ s.stack → i.mnemonic ∈ ["CallSubroutine", "Return"]) ∧
    (t.DT ≠ s.DT → i.mnemonic = "SetDelayTimer") ∧
    (t.ST ≠ s.ST → i.mnemonic = "SetSoundTimer") ∧
    t.key = s.key ∧
    (t.latch ≠ s.latch → i.mnemonic = "AwaitKeyPress" ∧ t.latch = none) ∧
    (t.memory ≠ s.memory → i.mnemonic ∈ ["StoreBCD", "WriteMemory"]) ∧
    (t.screen ≠ s.screen → i.mnemonic ∈ ["ClearScreen", "Draw"]) ∧
    (t.draws ≠ s.draws → i.mnemonic = "AndRandom" ∧ t.draws = s.draws + 1)

/-- Rule R26 and rule R22: a flag-writing variant that does not name `VF` as its destination leaves
exactly 0 or 1 in it. -/
def Obligations.FlagWritersLeaveZeroOrOne : Prop :=
  ∀ (i : Instr) (s t : State), exec i s = .next t → writesFlag i →
    0xF ∉ destinations i → t.reg 0xF = 0 ∨ t.reg 0xF = 1

/-- At reset (rule R340) the invariant `State.Inv` holds, whatever the ROM. Its bound on `pc` is rule
R25's and its pixels are rule R37's; that memory and the screen are lists in canonical form is the
model's (DESIGN CHOICE, log entries 4 and 15), and so is the bound on stack entries (DEDUCED from rules
R142 and R68, log entry 26). -/
def Obligations.EveryResetStateHasTheInvariant : Prop :=
  ∀ (rom : List Byte) (s : State), resetWithRom rom = .next s → s.Inv

/-- From every state that has the invariant `State.Inv`, also those no run reaches, a step leads to a
state that has it. The bound on `pc` (rule R25) and the pixels' values (rule R37, again in rule R39)
are the spec's; the canonical form of memory and the screen is the model's (DESIGN CHOICE, log entries
4 and 15), and so is the bound on stack entries (DEDUCED from rules R142 and R68, log entry 26). -/
def Obligations.EveryStepKeepsTheInvariant : Prop :=
  ∀ s t : State, s.Inv → step s = .next t → t.Inv

/-- Whatever operations follow a reset, in whatever order (rule R360), the invariant `State.Inv` holds
after each of them. The bound on `pc` (rule R25) and the pixels' values (rule R37, again in rule R39)
are the spec's; the canonical form of memory and the screen is the model's (DESIGN CHOICE, log entries
4 and 15), and so is the bound on stack entries (DEDUCED from rules R142 and R68, log entry 26). -/
def Obligations.EveryRunKeepsTheInvariant : Prop :=
  ∀ (rom : List Byte) (s : State) (ops : List Operation),
    resetWithRom rom = .next s → (runOperations ops s).Inv

/-- Rule R365 (decision D31): a terminal state is a fixed point of the step, its step sets no
`redraw`, and no sequence of operations leaves it. -/
def Obligations.TerminalStatesStayTerminal : Prop :=
  ∀ s : State, s.terminal →
    step s = .next s ∧ (∃ out, stepCycle s = .next (s, out) ∧ out.redraw = false) ∧
    ∀ ops : List Operation, (runOperations ops s).terminal ∧ faultFree ops s

/-- Rule R38 (an inference of the spec): "the stale content of popped stack entries (never
observable)". -/
def Obligations.DeadStackEntriesAreNeverObserved : Prop :=
  ∀ s t : State, sameButDeadStack s t → alike sameButDeadStack (step s) (step t)

/-- Rules R32 and R38: no instruction reads the sound timer, so nothing but the sound timer depends
on it. -/
def Obligations.SoundTimerIsNeverObserved : Prop :=
  ∀ s t : State, sameButSoundTimer s t → alike sameButSoundTimer (step s) (step t)

/-! ### The disassembler -/

/-- Rules R278 and R279 (decision D30): the words of a sequence of instructions disassemble to it,
with or without a single byte after them; the first unrecognised word, whatever follows it, ends it
with no output. -/
def Obligations.DisassembleReadsWordsUntilTheFirstBad : Prop :=
  ∀ (is : List Instr) (ws : List Word), List.Forall₂ (fun i w => encode i = some w) is ws →
    disassemble (ws.flatMap wordBytes) = .ok is ∧
    (∀ b : Byte, disassemble (ws.flatMap wordBytes ++ [b]) = .ok is) ∧
    ∀ (hi lo : Byte) (rest : List Byte), (∀ i, decode (joinBytes hi lo) ≠ .ok i) →
      disassemble (ws.flatMap wordBytes ++ hi :: lo :: rest) =
        .error (.unrecognizedOpcode (joinBytes hi lo))

/-- Rules R278 and R282 (an inference of the spec): a listing has one instruction for every two
bytes, and they encode to the words it was read from. -/
def Obligations.DisassemblyEncodesBackToItsInput : Prop :=
  ∀ (bytes : List Byte) (is : List Instr), disassemble bytes = .ok is →
    is.length = bytes.length / 2 ∧
    ∃ ws : List Word, List.Forall₂ (fun i w => encode i = some w) is ws ∧
      ws.flatMap wordBytes = bytes.take (2 * (bytes.length / 2))

/-- Rules R280 and R281 (decision D29 for the reduction of the address): the listing is its lines one
after the other, and line `k` shows address `2k mod 65536`, the word of the `k`-th instruction and its
sentence, under every sentence table and every layout. -/
def Obligations.RenderShowsOneLinePerInstruction : Prop :=
  ∀ (sentence : Instr → String) (line : LineFormat) (is : List Instr),
    (renderWith sentence line is).toList =
      (renderLines sentence line 0 is).flatMap String.toList ∧
    (renderLines sentence line 0 is).length = is.length ∧
    ∀ (k : Nat) (i : Instr), is[k]? = some i →
      (renderLines sentence line 0 is)[k]? =
        some (line (BitVec.ofNat 16 (2 * k)) (encodeWord i) (sentence i)) ∧
      ∀ w, encode i = some w → w = encodeWord i

/-- The examples of rules R277 and R281, under the default wording and layout of the spec (decisions
D28, D29). -/
def Obligations.DefaultListingOfTheExample : Prop :=
  describe (.addRegister 0xA 0xB) = "Add VB to VA with carry in VF" ∧
  disassemble [0x00, 0xE0, 0x1A, 0xBC] = .ok [.clearScreen, .jumpAbsolute 0xABC] ∧
  render [.clearScreen, .jumpAbsolute 0xABC] =
    "0000 00E0 Clear the screen\n0002 1ABC Jump to 0xABC\n"
end

