-- ==== Sys2Proof/Laws/Cells.lean ====
section
/-! SUPPORT. The laws of the byte arrays: a read after a write, and that writing keeps the canonical
form of memory and of the screen. -/

namespace Sys2Proof.Machine

variable (unlisted : Nat → Byte)

/-! ### Reading after writing -/

theorem Cells.read_erase (cells : Cells) (a b : Nat) :
    (cells.erase a).read unlisted b = if b = a then unlisted b else cells.read unlisted b := by
  induction cells with
  | nil => simp [Cells.erase, Cells.read]
  | cons c rest ih =>
    obtain ⟨k, v⟩ := c
    simp only [Cells.erase] at ih
    by_cases hka : k = a
    · subst hka
      simp only [Cells.erase, List.filter_cons, bne_self_eq_false, Bool.false_eq_true, if_false, ih,
        Cells.read]
      split <;> simp_all [eq_comm]
    · simp only [Cells.erase, List.filter_cons, bne_iff_ne, ne_eq, hka, not_false_eq_true, if_true,
        Cells.read, ih]
      split <;> simp_all

theorem Cells.read_insert (cells : Cells) (a b : Nat) (v : Byte) :
    (cells.insert a v).read unlisted b = if b = a then v else cells.read unlisted b := by
  induction cells with
  | nil => simp [Cells.insert, Cells.read, eq_comm]
  | cons c rest ih =>
    obtain ⟨k, w⟩ := c
    simp only [Cells.insert]
    split
    · simp [Cells.read, eq_comm]
    · split
      · rename_i hak
        subst hak
        by_cases hb : b = a
        · simp [Cells.read, hb]
        · simp [Cells.read, hb, Ne.symm hb]
      · rename_i hak
        by_cases hb : b = a
        · subst hb
          simp [Cells.read, ih, Ne.symm hak]
        · simp [Cells.read, ih, hb]

/-- A byte that is written is read back, and every other byte is as before (rule R70). -/
theorem Cells.read_write (cells : Cells) (a b : Nat) (v : Byte) :
    (cells.write unlisted a v).read unlisted b =
      if b = a then v else cells.read unlisted b := by
  unfold Cells.write
  split
  · rename_i h
    subst h
    rw [Cells.read_erase]
    split <;> simp_all
  · exact Cells.read_insert unlisted cells a b v

/-- The same for a block (rule R63). -/
theorem Cells.read_writeAll (cells : Cells) (base : Nat) (bytes : List Byte) (b : Nat) :
    (cells.writeAll unlisted base bytes).read unlisted b =
      if base ≤ b then (bytes[b - base]?).getD (cells.read unlisted b)
      else cells.read unlisted b := by
  induction bytes generalizing cells base with
  | nil => simp [Cells.writeAll]
  | cons v rest ih =>
    rw [Cells.writeAll, ih, Cells.read_write]
    rcases Nat.lt_trichotomy b base with hlt | heq | hgt
    · rw [if_neg (by omega), if_neg (by omega), if_neg (by omega)]
    · subst heq
      simp
    · rw [if_pos (by omega), if_neg (by omega), if_pos (by omega)]
      obtain ⟨d, hd⟩ : ∃ d, b - base = d + 1 := ⟨b - base - 1, by omega⟩
      rw [hd, show b - (base + 1) = d by omega, List.getElem?_cons_succ]

/-! ### The canonical form -/

/-- Addresses rise strictly. -/
abbrev Cells.rising (cells : Cells) : Prop := (cells.map Prod.fst).Pairwise (· < ·)

theorem Cells.mem_erase {cells : Cells} {a : Nat} {c : Host.Cell} :
    c ∈ cells.erase a ↔ c ∈ cells ∧ c.1 ≠ a := by
  simp [Cells.erase]

theorem Cells.mem_of_mem_insert {cells : Cells} {a : Nat} {v : Byte} {c : Host.Cell}
    (h : c ∈ cells.insert a v) : c = (a, v) ∨ c ∈ cells := by
  induction cells with
  | nil => simpa [Cells.insert] using h
  | cons d rest ih =>
    obtain ⟨k, w⟩ := d
    simp only [Cells.insert] at h
    split at h
    · simpa using h
    · split at h
      · rcases List.mem_cons.1 h with h | h
        · exact .inl h
        · exact .inr (List.mem_cons_of_mem _ h)
      · rcases List.mem_cons.1 h with h | h
        · exact .inr (h ▸ List.mem_cons_self)
        · exact (ih h).imp id (List.mem_cons_of_mem _)

theorem Cells.rising_erase {cells : Cells} (a : Nat) (h : cells.rising) :
    (cells.erase a).rising := by
  unfold Cells.rising at *
  exact h.sublist (List.filter_sublist.map _)

theorem Cells.rising_insert {cells : Cells} (a : Nat) (v : Byte) (h : cells.rising) :
    (cells.insert a v).rising := by
  induction cells with
  | nil => simp [Cells.insert, Cells.rising]
  | cons c rest ih =>
    obtain ⟨k, w⟩ := c
    simp only [Cells.rising, List.map_cons, List.pairwise_cons, List.mem_map] at h ih ⊢
    obtain ⟨hk, hrest⟩ := h
    simp only [Cells.insert]
    split
    · rename_i hak
      simp only [List.map_cons, List.pairwise_cons, List.mem_cons, List.mem_map]
      refine ⟨?_, ⟨hk, hrest⟩⟩
      rintro b (rfl | ⟨d, hd, rfl⟩)
      · exact hak
      · exact Nat.lt_trans hak (hk _ ⟨d, hd, rfl⟩)
    · split
      · rename_i hak
        subst hak
        simp only [List.map_cons, List.pairwise_cons, List.mem_map]
        exact ⟨hk, hrest⟩
      · rename_i h1 h2
        simp only [List.map_cons, List.pairwise_cons, List.mem_map]
        refine ⟨?_, ih hrest⟩
        rintro b ⟨d, hd, rfl⟩
        rcases Cells.mem_of_mem_insert hd with rfl | hd
        · simp only
          omega
        · exact hk _ ⟨d, hd, rfl⟩

theorem Cells.rising_write {cells : Cells} (a : Nat) (v : Byte) (h : cells.rising) :
    (cells.write unlisted a v).rising := by
  unfold Cells.write
  split
  · exact Cells.rising_erase a h
  · exact Cells.rising_insert a v h

/-- Every entry after a write was there before, or is the one written, which the unlisted byte is
not. -/
theorem Cells.mem_of_mem_write {cells : Cells} {a : Nat} {v : Byte} {c : Host.Cell}
    (h : c ∈ cells.write unlisted a v) : (c = (a, v) ∧ v ≠ unlisted a) ∨ c ∈ cells := by
  unfold Cells.write at h
  split at h
  · exact .inr (Cells.mem_erase.1 h).1
  · rename_i hv
    exact (Cells.mem_of_mem_insert h).imp (⟨·, hv⟩) id

/-- Reset memory and a reset screen list nothing. -/
theorem Memory.wf_nil : Memory.wf [] := by simp [Memory.wf]

theorem Screen.wf_nil : Screen.wf [] := by simp [Screen.wf]

/-- A byte store to an address that exists keeps memory canonical. -/
theorem Memory.wf_write {memory : Cells} {a : Nat} (v : Byte) (ha : a ≤ 0xFFF)
    (h : Memory.wf memory) : Memory.wf (memory.write resetByte a v) := by
  refine ⟨Cells.rising_write resetByte a v h.1, fun c hc => ?_⟩
  rcases Cells.mem_of_mem_write resetByte hc with ⟨rfl, hv⟩ | hc
  · exact ⟨ha, hv⟩
  · exact h.2 c hc

/-- So does a block store within memory. -/
theorem Memory.wf_writeAll {memory : Cells} {base : Nat} (bytes : List Byte)
    (hb : base + bytes.length ≤ 0x1000) (h : Memory.wf memory) :
    Memory.wf (memory.writeAll resetByte base bytes) := by
  induction bytes generalizing memory base with
  | nil => exact h
  | cons v rest ih =>
    simp only [List.length_cons] at hb
    exact ih (by omega) (Memory.wf_write v (by omega) h)

/-- A pixel write of 0 or 1 keeps the screen canonical. -/
theorem Screen.wf_write {screen : Cells} {k : Nat} {v : Byte} (hk : k < 2048)
    (hv : v = 0 ∨ v = 1) (h : Screen.wf screen) : Screen.wf (screen.write darkPixel k v) := by
  refine ⟨Cells.rising_write darkPixel k v h.1, fun c hc => ?_⟩
  rcases Cells.mem_of_mem_write darkPixel hc with ⟨rfl, hne⟩ | hc
  · exact ⟨hk, hv.resolve_left hne⟩
  · exact h.2 c hc

/-- On a canonical screen every pixel is 0 or 1 (rule R37). -/
theorem Screen.read_of_wf {screen : Cells} (h : Screen.wf screen) (k : Nat) :
    screen.read darkPixel k = 0 ∨ screen.read darkPixel k = 1 := by
  obtain ⟨-, h⟩ := h
  induction screen with
  | nil => exact .inl rfl
  | cons c rest ih =>
    obtain ⟨j, v⟩ := c
    rw [Cells.read]
    split
    · exact .inr (h _ List.mem_cons_self).2
    · exact ih fun c hc => h c (List.mem_cons_of_mem _ hc)

end Sys2Proof.Machine
end

