-- ==== Sys2Proof/Laws/Decode.lean ====
section
/-! SUPPORT. The fields of a word that is written as the concatenation of its parts
(`spec/30_encoding.md` rules R91, R92): the four shapes are `NNN`, `XKK` (and `XSS`), and `XYS`
(and `XYN`). -/

namespace Sys2Proof

variable (g x y n : Nibble) (v : Byte) (a : Addr)

/-! ### Shape `NNN`: a group and an address -/

@[simp] theorem groupOf_address : groupOf (g ++ a) = g := by
  apply BitVec.eq_of_getLsbD_eq
  intro i hi
  simp only [groupOf, BitVec.getLsbD_extractLsb', BitVec.getLsbD_append]
  simp [hi]

@[simp] theorem fieldAddress_address : fieldAddress (g ++ a) = a := by
  apply BitVec.eq_of_getLsbD_eq
  intro i hi
  simp only [fieldAddress, BitVec.getLsbD_extractLsb', BitVec.getLsbD_append]
  simp [hi]

/-! ### Shape `XKK`: a group, a register and a byte -/

@[simp] theorem groupOf_value : groupOf (g ++ x ++ v) = g := by
  apply BitVec.eq_of_getLsbD_eq
  intro i hi
  simp only [groupOf, BitVec.getLsbD_extractLsb', BitVec.getLsbD_append]
  simp [hi, show ¬(12 + i < 8) by omega, show ¬(12 + i - 8 < 4) by omega,
    show 12 + i - 8 - 4 = i by omega]

@[simp] theorem fieldX_value : fieldX (g ++ x ++ v) = x := by
  apply BitVec.eq_of_getLsbD_eq
  intro i hi
  simp only [fieldX, BitVec.getLsbD_extractLsb', BitVec.getLsbD_append]
  simp [hi]

@[simp] theorem fieldValue_value : fieldValue (g ++ x ++ v) = v := by
  apply BitVec.eq_of_getLsbD_eq
  intro i hi
  simp only [fieldValue, BitVec.getLsbD_extractLsb', BitVec.getLsbD_append]
  simp [hi]

/-! ### Shape `XYS`: a group, two registers and a nibble -/

@[simp] theorem groupOf_nibbles : groupOf (g ++ x ++ y ++ n) = g := by
  apply BitVec.eq_of_getLsbD_eq
  intro i hi
  simp only [groupOf, BitVec.getLsbD_extractLsb', BitVec.getLsbD_append]
  simp [hi, show ¬(12 + i < 4) by omega, show ¬(12 + i - 4 < 4) by omega,
    show ¬(12 + i - 4 - 4 < 4) by omega, show 12 + i - 4 - 4 - 4 = i by omega]

@[simp] theorem fieldX_nibbles : fieldX (g ++ x ++ y ++ n) = x := by
  apply BitVec.eq_of_getLsbD_eq
  intro i hi
  simp only [fieldX, BitVec.getLsbD_extractLsb', BitVec.getLsbD_append]
  simp [hi, show ¬(8 + i < 4) by omega, show ¬(8 + i - 4 < 4) by omega,
    show 8 + i - 4 - 4 = i by omega]

@[simp] theorem fieldY_nibbles : fieldY (g ++ x ++ y ++ n) = y := by
  apply BitVec.eq_of_getLsbD_eq
  intro i hi
  simp only [fieldY, BitVec.getLsbD_extractLsb', BitVec.getLsbD_append]
  simp [hi]

@[simp] theorem fieldN_nibbles : fieldN (g ++ x ++ y ++ n) = n := by
  apply BitVec.eq_of_getLsbD_eq
  intro i hi
  simp only [fieldN, BitVec.getLsbD_extractLsb', BitVec.getLsbD_append]
  simp [hi]

/-! ### A word from its parts -/

/-- Every word is a group and an address (rule R91, format `NNN`). -/
theorem word_eq_address (w : Word) : w = groupOf w ++ fieldAddress w := by
  apply BitVec.eq_of_getLsbD_eq
  intro i hi
  simp only [groupOf, fieldAddress, BitVec.getLsbD_extractLsb', BitVec.getLsbD_append]
  split
  · simp_all
  · simp [show i - 12 < 4 by omega, show 12 + (i - 12) = i by omega]

/-- Every word is a group, a register and a byte (rule R91, format `XKK`). -/
theorem word_eq_value (w : Word) : w = groupOf w ++ fieldX w ++ fieldValue w := by
  apply BitVec.eq_of_getLsbD_eq
  intro i hi
  simp only [groupOf, fieldX, fieldValue, BitVec.getLsbD_extractLsb', BitVec.getLsbD_append]
  split
  · simp_all
  · split
    · simp_all [show 8 + (i - 8) = i by omega]
    · simp [show i - 8 - 4 < 4 by omega, show 12 + (i - 8 - 4) = i by omega]

/-- Every word is a group and three nibbles (rule R91, format `XYN`). -/
theorem word_eq_nibbles (w : Word) : w = groupOf w ++ fieldX w ++ fieldY w ++ fieldN w := by
  apply BitVec.eq_of_getLsbD_eq
  intro i hi
  simp only [groupOf, fieldX, fieldY, fieldN, BitVec.getLsbD_extractLsb', BitVec.getLsbD_append]
  split
  · simp_all
  · split
    · simp_all [show 4 + (i - 4) = i by omega]
    · split
      · simp_all [show 8 + (i - 4 - 4) = i by omega]
      · simp [show i - 4 - 4 - 4 < 4 by omega, show 12 + (i - 4 - 4 - 4) = i by omega]

/-- Rule R62: a word is its two bytes joined, and the two bytes of a join are the bytes joined. -/
theorem joinBytes_high_low (w : Word) : joinBytes (highByte w) (lowByte w) = w := by
  apply BitVec.eq_of_getLsbD_eq
  intro i hi
  simp only [joinBytes, highByte, lowByte, BitVec.getLsbD_extractLsb', BitVec.getLsbD_append]
  split
  · simp_all
  · simp [show i - 8 < 8 by omega, show 8 + (i - 8) = i by omega]

@[simp] theorem highByte_joinBytes (hi lo : Byte) : highByte (joinBytes hi lo) = hi := by
  apply BitVec.eq_of_getLsbD_eq
  intro i h
  simp only [joinBytes, highByte, BitVec.getLsbD_extractLsb', BitVec.getLsbD_append]
  simp [h]

@[simp] theorem lowByte_joinBytes (hi lo : Byte) : lowByte (joinBytes hi lo) = lo := by
  apply BitVec.eq_of_getLsbD_eq
  intro i h
  simp only [joinBytes, lowByte, BitVec.getLsbD_extractLsb', BitVec.getLsbD_append]
  simp [h]

/-- The bytes of a word that was joined from two are those two, in order (rule R62). -/
@[simp] theorem wordBytes_joinBytes (hi lo : Byte) : wordBytes (joinBytes hi lo) = [hi, lo] := by
  simp [wordBytes]

/-- Rule R62 in numbers. -/
theorem toNat_joinBytes (hi lo : Byte) :
    (joinBytes hi lo).toNat = hi.toNat * 256 + lo.toNat := by
  rw [joinBytes, BitVec.toNat_append, Nat.shiftLeft_eq, Nat.mul_comm hi.toNat,
    ← Nat.two_pow_add_eq_or_of_lt lo.isLt, Nat.mul_comm]

/-- A failure carries the word that failed (rules R270, R300). -/
theorem decode_error {w : Word} {e : DecodeError} (h : decode w = .error e) :
    e = .unrecognizedOpcode w := by
  simp only [decode, decodeGroup8, decodeGroupE, decodeGroupF] at h
  repeat' split at h
  all_goals simp_all

/-- `encode` gives the word of rule R272 for a well-formed instruction, and no word for another. -/
theorem encode_eq_some {i : Instr} {w : Word} : encode i = some w ↔ i.wf ∧ encodeWord i = w := by
  simp [encode]

theorem encode_eq_none {i : Instr} : encode i = none ↔ ¬i.wf := by simp [encode]

end Sys2Proof
end

