-- ==== Sys2Proof/Laws/State.lean ====
section
/-! SUPPORT. What each update of the state does to each field, so that no proof unfolds a record
update; and the accessors after the updates of what they read. -/

namespace Sys2Proof.Machine

variable (s : State)

/-! ### `setReg` -/

@[simp] theorem State.I_setReg (k : Nibble) (v : Byte) : (s.setReg k v).I = s.I := rfl
@[simp] theorem State.pc_setReg (k : Nibble) (v : Byte) : (s.setReg k v).pc = s.pc := rfl
@[simp] theorem State.stack_setReg (k : Nibble) (v : Byte) : (s.setReg k v).stack = s.stack := rfl
@[simp] theorem State.sp_setReg (k : Nibble) (v : Byte) : (s.setReg k v).sp = s.sp := rfl
@[simp] theorem State.DT_setReg (k : Nibble) (v : Byte) : (s.setReg k v).DT = s.DT := rfl
@[simp] theorem State.ST_setReg (k : Nibble) (v : Byte) : (s.setReg k v).ST = s.ST := rfl
@[simp] theorem State.key_setReg (k : Nibble) (v : Byte) : (s.setReg k v).key = s.key := rfl
@[simp] theorem State.latch_setReg (k : Nibble) (v : Byte) : (s.setReg k v).latch = s.latch := rfl
@[simp] theorem State.memory_setReg (k : Nibble) (v : Byte) : (s.setReg k v).memory = s.memory := rfl
@[simp] theorem State.screen_setReg (k : Nibble) (v : Byte) : (s.setReg k v).screen = s.screen := rfl
@[simp] theorem State.draws_setReg (k : Nibble) (v : Byte) : (s.setReg k v).draws = s.draws := rfl

/-! ### `setIndex` -/

@[simp] theorem State.V_setIndex (v : Word) : (s.setIndex v).V = s.V := rfl
@[simp] theorem State.I_setIndex (v : Word) : (s.setIndex v).I = v := rfl
@[simp] theorem State.pc_setIndex (v : Word) : (s.setIndex v).pc = s.pc := rfl
@[simp] theorem State.stack_setIndex (v : Word) : (s.setIndex v).stack = s.stack := rfl
@[simp] theorem State.sp_setIndex (v : Word) : (s.setIndex v).sp = s.sp := rfl
@[simp] theorem State.DT_setIndex (v : Word) : (s.setIndex v).DT = s.DT := rfl
@[simp] theorem State.ST_setIndex (v : Word) : (s.setIndex v).ST = s.ST := rfl
@[simp] theorem State.key_setIndex (v : Word) : (s.setIndex v).key = s.key := rfl
@[simp] theorem State.latch_setIndex (v : Word) : (s.setIndex v).latch = s.latch := rfl
@[simp] theorem State.memory_setIndex (v : Word) : (s.setIndex v).memory = s.memory := rfl
@[simp] theorem State.screen_setIndex (v : Word) : (s.setIndex v).screen = s.screen := rfl
@[simp] theorem State.draws_setIndex (v : Word) : (s.setIndex v).draws = s.draws := rfl

/-! ### `setPc` -/

@[simp] theorem State.V_setPc (v : Word) : (s.setPc v).V = s.V := rfl
@[simp] theorem State.I_setPc (v : Word) : (s.setPc v).I = s.I := rfl
@[simp] theorem State.pc_setPc (v : Word) : (s.setPc v).pc = v := rfl
@[simp] theorem State.stack_setPc (v : Word) : (s.setPc v).stack = s.stack := rfl
@[simp] theorem State.sp_setPc (v : Word) : (s.setPc v).sp = s.sp := rfl
@[simp] theorem State.DT_setPc (v : Word) : (s.setPc v).DT = s.DT := rfl
@[simp] theorem State.ST_setPc (v : Word) : (s.setPc v).ST = s.ST := rfl
@[simp] theorem State.key_setPc (v : Word) : (s.setPc v).key = s.key := rfl
@[simp] theorem State.latch_setPc (v : Word) : (s.setPc v).latch = s.latch := rfl
@[simp] theorem State.memory_setPc (v : Word) : (s.setPc v).memory = s.memory := rfl
@[simp] theorem State.screen_setPc (v : Word) : (s.setPc v).screen = s.screen := rfl
@[simp] theorem State.draws_setPc (v : Word) : (s.setPc v).draws = s.draws := rfl

/-! ### `push` -/

@[simp] theorem State.V_push (v : Word) (h : s.sp.val < 16) : (s.push v h).V = s.V := rfl
@[simp] theorem State.I_push (v : Word) (h : s.sp.val < 16) : (s.push v h).I = s.I := rfl
@[simp] theorem State.pc_push (v : Word) (h : s.sp.val < 16) : (s.push v h).pc = s.pc := rfl
@[simp] theorem State.DT_push (v : Word) (h : s.sp.val < 16) : (s.push v h).DT = s.DT := rfl
@[simp] theorem State.ST_push (v : Word) (h : s.sp.val < 16) : (s.push v h).ST = s.ST := rfl
@[simp] theorem State.key_push (v : Word) (h : s.sp.val < 16) : (s.push v h).key = s.key := rfl
@[simp] theorem State.latch_push (v : Word) (h : s.sp.val < 16) : (s.push v h).latch = s.latch := rfl
@[simp] theorem State.memory_push (v : Word) (h : s.sp.val < 16) : (s.push v h).memory = s.memory := rfl
@[simp] theorem State.screen_push (v : Word) (h : s.sp.val < 16) : (s.push v h).screen = s.screen := rfl
@[simp] theorem State.draws_push (v : Word) (h : s.sp.val < 16) : (s.push v h).draws = s.draws := rfl

/-! ### `pop` -/

@[simp] theorem State.V_pop : (s.pop).V = s.V := rfl
@[simp] theorem State.I_pop : (s.pop).I = s.I := rfl
@[simp] theorem State.pc_pop : (s.pop).pc = s.pc := rfl
@[simp] theorem State.stack_pop : (s.pop).stack = s.stack := rfl
@[simp] theorem State.DT_pop : (s.pop).DT = s.DT := rfl
@[simp] theorem State.ST_pop : (s.pop).ST = s.ST := rfl
@[simp] theorem State.key_pop : (s.pop).key = s.key := rfl
@[simp] theorem State.latch_pop : (s.pop).latch = s.latch := rfl
@[simp] theorem State.memory_pop : (s.pop).memory = s.memory := rfl
@[simp] theorem State.screen_pop : (s.pop).screen = s.screen := rfl
@[simp] theorem State.draws_pop : (s.pop).draws = s.draws := rfl

/-! ### `setDT` -/

@[simp] theorem State.V_setDT (v : Byte) : (s.setDT v).V = s.V := rfl
@[simp] theorem State.I_setDT (v : Byte) : (s.setDT v).I = s.I := rfl
@[simp] theorem State.pc_setDT (v : Byte) : (s.setDT v).pc = s.pc := rfl
@[simp] theorem State.stack_setDT (v : Byte) : (s.setDT v).stack = s.stack := rfl
@[simp] theorem State.sp_setDT (v : Byte) : (s.setDT v).sp = s.sp := rfl
@[simp] theorem State.DT_setDT (v : Byte) : (s.setDT v).DT = v := rfl
@[simp] theorem State.ST_setDT (v : Byte) : (s.setDT v).ST = s.ST := rfl
@[simp] theorem State.key_setDT (v : Byte) : (s.setDT v).key = s.key := rfl
@[simp] theorem State.latch_setDT (v : Byte) : (s.setDT v).latch = s.latch := rfl
@[simp] theorem State.memory_setDT (v : Byte) : (s.setDT v).memory = s.memory := rfl
@[simp] theorem State.screen_setDT (v : Byte) : (s.setDT v).screen = s.screen := rfl
@[simp] theorem State.draws_setDT (v : Byte) : (s.setDT v).draws = s.draws := rfl

/-! ### `setST` -/

@[simp] theorem State.V_setST (v : Byte) : (s.setST v).V = s.V := rfl
@[simp] theorem State.I_setST (v : Byte) : (s.setST v).I = s.I := rfl
@[simp] theorem State.pc_setST (v : Byte) : (s.setST v).pc = s.pc := rfl
@[simp] theorem State.stack_setST (v : Byte) : (s.setST v).stack = s.stack := rfl
@[simp] theorem State.sp_setST (v : Byte) : (s.setST v).sp = s.sp := rfl
@[simp] theorem State.DT_setST (v : Byte) : (s.setST v).DT = s.DT := rfl
@[simp] theorem State.ST_setST (v : Byte) : (s.setST v).ST = v := rfl
@[simp] theorem State.key_setST (v : Byte) : (s.setST v).key = s.key := rfl
@[simp] theorem State.latch_setST (v : Byte) : (s.setST v).latch = s.latch := rfl
@[simp] theorem State.memory_setST (v : Byte) : (s.setST v).memory = s.memory := rfl
@[simp] theorem State.screen_setST (v : Byte) : (s.setST v).screen = s.screen := rfl
@[simp] theorem State.draws_setST (v : Byte) : (s.setST v).draws = s.draws := rfl

/-! ### `setKey` -/

@[simp] theorem State.V_setKey (k : Nibble) (b : Bool) : (s.setKey k b).V = s.V := rfl
@[simp] theorem State.I_setKey (k : Nibble) (b : Bool) : (s.setKey k b).I = s.I := rfl
@[simp] theorem State.pc_setKey (k : Nibble) (b : Bool) : (s.setKey k b).pc = s.pc := rfl
@[simp] theorem State.stack_setKey (k : Nibble) (b : Bool) : (s.setKey k b).stack = s.stack := rfl
@[simp] theorem State.sp_setKey (k : Nibble) (b : Bool) : (s.setKey k b).sp = s.sp := rfl
@[simp] theorem State.DT_setKey (k : Nibble) (b : Bool) : (s.setKey k b).DT = s.DT := rfl
@[simp] theorem State.ST_setKey (k : Nibble) (b : Bool) : (s.setKey k b).ST = s.ST := rfl
@[simp] theorem State.latch_setKey (k : Nibble) (b : Bool) : (s.setKey k b).latch = s.latch := rfl
@[simp] theorem State.memory_setKey (k : Nibble) (b : Bool) : (s.setKey k b).memory = s.memory := rfl
@[simp] theorem State.screen_setKey (k : Nibble) (b : Bool) : (s.setKey k b).screen = s.screen := rfl
@[simp] theorem State.draws_setKey (k : Nibble) (b : Bool) : (s.setKey k b).draws = s.draws := rfl

/-! ### `setLatch` -/

@[simp] theorem State.V_setLatch (v : Option Nibble) : (s.setLatch v).V = s.V := rfl
@[simp] theorem State.I_setLatch (v : Option Nibble) : (s.setLatch v).I = s.I := rfl
@[simp] theorem State.pc_setLatch (v : Option Nibble) : (s.setLatch v).pc = s.pc := rfl
@[simp] theorem State.stack_setLatch (v : Option Nibble) : (s.setLatch v).stack = s.stack := rfl
@[simp] theorem State.sp_setLatch (v : Option Nibble) : (s.setLatch v).sp = s.sp := rfl
@[simp] theorem State.DT_setLatch (v : Option Nibble) : (s.setLatch v).DT = s.DT := rfl
@[simp] theorem State.ST_setLatch (v : Option Nibble) : (s.setLatch v).ST = s.ST := rfl
@[simp] theorem State.key_setLatch (v : Option Nibble) : (s.setLatch v).key = s.key := rfl
@[simp] theorem State.latch_setLatch (v : Option Nibble) : (s.setLatch v).latch = v := rfl
@[simp] theorem State.memory_setLatch (v : Option Nibble) : (s.setLatch v).memory = s.memory := rfl
@[simp] theorem State.screen_setLatch (v : Option Nibble) : (s.setLatch v).screen = s.screen := rfl
@[simp] theorem State.draws_setLatch (v : Option Nibble) : (s.setLatch v).draws = s.draws := rfl

/-! ### `countDraw` -/

@[simp] theorem State.V_countDraw : (s.countDraw).V = s.V := rfl
@[simp] theorem State.I_countDraw : (s.countDraw).I = s.I := rfl
@[simp] theorem State.pc_countDraw : (s.countDraw).pc = s.pc := rfl
@[simp] theorem State.stack_countDraw : (s.countDraw).stack = s.stack := rfl
@[simp] theorem State.sp_countDraw : (s.countDraw).sp = s.sp := rfl
@[simp] theorem State.DT_countDraw : (s.countDraw).DT = s.DT := rfl
@[simp] theorem State.ST_countDraw : (s.countDraw).ST = s.ST := rfl
@[simp] theorem State.key_countDraw : (s.countDraw).key = s.key := rfl
@[simp] theorem State.latch_countDraw : (s.countDraw).latch = s.latch := rfl
@[simp] theorem State.memory_countDraw : (s.countDraw).memory = s.memory := rfl
@[simp] theorem State.screen_countDraw : (s.countDraw).screen = s.screen := rfl
@[simp] theorem State.draws_countDraw : (s.countDraw).draws = s.draws + 1 := rfl

/-! ### `storeBytes` -/

@[simp] theorem State.V_storeBytes (a : Nat) (bs : List Byte) : (s.storeBytes a bs).V = s.V := rfl
@[simp] theorem State.I_storeBytes (a : Nat) (bs : List Byte) : (s.storeBytes a bs).I = s.I := rfl
@[simp] theorem State.pc_storeBytes (a : Nat) (bs : List Byte) : (s.storeBytes a bs).pc = s.pc := rfl
@[simp] theorem State.stack_storeBytes (a : Nat) (bs : List Byte) : (s.storeBytes a bs).stack = s.stack := rfl
@[simp] theorem State.sp_storeBytes (a : Nat) (bs : List Byte) : (s.storeBytes a bs).sp = s.sp := rfl
@[simp] theorem State.DT_storeBytes (a : Nat) (bs : List Byte) : (s.storeBytes a bs).DT = s.DT := rfl
@[simp] theorem State.ST_storeBytes (a : Nat) (bs : List Byte) : (s.storeBytes a bs).ST = s.ST := rfl
@[simp] theorem State.key_storeBytes (a : Nat) (bs : List Byte) : (s.storeBytes a bs).key = s.key := rfl
@[simp] theorem State.latch_storeBytes (a : Nat) (bs : List Byte) : (s.storeBytes a bs).latch = s.latch := rfl
@[simp] theorem State.screen_storeBytes (a : Nat) (bs : List Byte) : (s.storeBytes a bs).screen = s.screen := rfl
@[simp] theorem State.draws_storeBytes (a : Nat) (bs : List Byte) : (s.storeBytes a bs).draws = s.draws := rfl

/-! ### `setPx` -/

@[simp] theorem State.V_setPx (r c : Nat) (v : Byte) : (s.setPx r c v).V = s.V := rfl
@[simp] theorem State.I_setPx (r c : Nat) (v : Byte) : (s.setPx r c v).I = s.I := rfl
@[simp] theorem State.pc_setPx (r c : Nat) (v : Byte) : (s.setPx r c v).pc = s.pc := rfl
@[simp] theorem State.stack_setPx (r c : Nat) (v : Byte) : (s.setPx r c v).stack = s.stack := rfl
@[simp] theorem State.sp_setPx (r c : Nat) (v : Byte) : (s.setPx r c v).sp = s.sp := rfl
@[simp] theorem State.DT_setPx (r c : Nat) (v : Byte) : (s.setPx r c v).DT = s.DT := rfl
@[simp] theorem State.ST_setPx (r c : Nat) (v : Byte) : (s.setPx r c v).ST = s.ST := rfl
@[simp] theorem State.key_setPx (r c : Nat) (v : Byte) : (s.setPx r c v).key = s.key := rfl
@[simp] theorem State.latch_setPx (r c : Nat) (v : Byte) : (s.setPx r c v).latch = s.latch := rfl
@[simp] theorem State.memory_setPx (r c : Nat) (v : Byte) : (s.setPx r c v).memory = s.memory := rfl
@[simp] theorem State.draws_setPx (r c : Nat) (v : Byte) : (s.setPx r c v).draws = s.draws := rfl

/-! ### `clearPx` -/

@[simp] theorem State.V_clearPx : (s.clearPx).V = s.V := rfl
@[simp] theorem State.I_clearPx : (s.clearPx).I = s.I := rfl
@[simp] theorem State.pc_clearPx : (s.clearPx).pc = s.pc := rfl
@[simp] theorem State.stack_clearPx : (s.clearPx).stack = s.stack := rfl
@[simp] theorem State.sp_clearPx : (s.clearPx).sp = s.sp := rfl
@[simp] theorem State.DT_clearPx : (s.clearPx).DT = s.DT := rfl
@[simp] theorem State.ST_clearPx : (s.clearPx).ST = s.ST := rfl
@[simp] theorem State.key_clearPx : (s.clearPx).key = s.key := rfl
@[simp] theorem State.latch_clearPx : (s.clearPx).latch = s.latch := rfl
@[simp] theorem State.memory_clearPx : (s.clearPx).memory = s.memory := rfl
@[simp] theorem State.screen_clearPx : (s.clearPx).screen = [] := rfl
@[simp] theorem State.draws_clearPx : (s.clearPx).draws = s.draws := rfl

/-! ### `setFlag` -/

@[simp] theorem State.I_setFlag (f : Byte) : (s.setFlag f).I = s.I := rfl
@[simp] theorem State.pc_setFlag (f : Byte) : (s.setFlag f).pc = s.pc := rfl
@[simp] theorem State.stack_setFlag (f : Byte) : (s.setFlag f).stack = s.stack := rfl
@[simp] theorem State.sp_setFlag (f : Byte) : (s.setFlag f).sp = s.sp := rfl
@[simp] theorem State.DT_setFlag (f : Byte) : (s.setFlag f).DT = s.DT := rfl
@[simp] theorem State.ST_setFlag (f : Byte) : (s.setFlag f).ST = s.ST := rfl
@[simp] theorem State.key_setFlag (f : Byte) : (s.setFlag f).key = s.key := rfl
@[simp] theorem State.latch_setFlag (f : Byte) : (s.setFlag f).latch = s.latch := rfl
@[simp] theorem State.memory_setFlag (f : Byte) : (s.setFlag f).memory = s.memory := rfl
@[simp] theorem State.screen_setFlag (f : Byte) : (s.setFlag f).screen = s.screen := rfl
@[simp] theorem State.draws_setFlag (f : Byte) : (s.setFlag f).draws = s.draws := rfl
/-! ### Accessors -/

theorem State.setFlag_eq (f : Byte) : s.setFlag f = s.setReg 0xF f := rfl

/-- Writing one register is seen by reading it, and by reading no other (rule R20). -/
theorem State.reg_setReg (k j : Nibble) (v : Byte) :
    (s.setReg k v).reg j = if j = k then v else s.reg j := by
  simp only [State.reg, State.setReg, Vector.getElem_set, ← BitVec.toNat_inj, eq_comm]

@[simp] theorem State.reg_setReg_same (k : Nibble) (v : Byte) : (s.setReg k v).reg k = v := by
  simp [State.reg_setReg]

theorem State.reg_setReg_other {k j : Nibble} (v : Byte) (h : j ≠ k) :
    (s.setReg k v).reg j = s.reg j := by
  simp [State.reg_setReg, h]

/-- Two updates of one register: the later one counts. -/
@[simp] theorem State.setReg_setReg (k : Nibble) (v w : Byte) :
    (s.setReg k v).setReg k w = s.setReg k w := by
  simp [State.setReg]

/-- The flag is register `VF` (rule R22). -/
theorem State.reg_setFlag (j : Nibble) (f : Byte) :
    (s.setFlag f).reg j = if j = 0xF then f else s.reg j :=
  State.reg_setReg s 0xF j f

@[simp] theorem State.reg_setIndex (v : Word) (j : Nibble) : (s.setIndex v).reg j = s.reg j := rfl
@[simp] theorem State.reg_push (v : Word) (h : s.sp.val < 16) (j : Nibble) :
    (s.push v h).reg j = s.reg j := rfl
@[simp] theorem State.reg_pop (j : Nibble) : s.pop.reg j = s.reg j := rfl
@[simp] theorem State.reg_setDT (v : Byte) (j : Nibble) : (s.setDT v).reg j = s.reg j := rfl
@[simp] theorem State.reg_setST (v : Byte) (j : Nibble) : (s.setST v).reg j = s.reg j := rfl
@[simp] theorem State.reg_setKey (k : Nibble) (b : Bool) (j : Nibble) :
    (s.setKey k b).reg j = s.reg j := rfl
@[simp] theorem State.reg_setLatch (v : Option Nibble) (j : Nibble) :
    (s.setLatch v).reg j = s.reg j := rfl
@[simp] theorem State.reg_countDraw (j : Nibble) : s.countDraw.reg j = s.reg j := rfl
@[simp] theorem State.reg_storeBytes (a : Nat) (bs : List Byte) (j : Nibble) :
    (s.storeBytes a bs).reg j = s.reg j := rfl
@[simp] theorem State.reg_setPx (r c : Nat) (v : Byte) (j : Nibble) :
    (s.setPx r c v).reg j = s.reg j := rfl
@[simp] theorem State.reg_clearPx (j : Nibble) : s.clearPx.reg j = s.reg j := rfl
@[simp] theorem State.reg_setPc (p : Word) (j : Nibble) : (s.setPc p).reg j = s.reg j := rfl

@[simp] theorem State.byteAt_setReg (k : Nibble) (v : Byte) (a : Nat) :
    (s.setReg k v).byteAt a = s.byteAt a := rfl
@[simp] theorem State.byteAt_setFlag (f : Byte) (a : Nat) :
    (s.setFlag f).byteAt a = s.byteAt a := rfl
@[simp] theorem State.byteAt_setPx (r c : Nat) (v : Byte) (a : Nat) :
    (s.setPx r c v).byteAt a = s.byteAt a := rfl
@[simp] theorem State.byteAt_setPc (p : Word) (a : Nat) : (s.setPc p).byteAt a = s.byteAt a := rfl

@[simp] theorem State.px_setReg (k : Nibble) (v : Byte) (r c : Nat) :
    (s.setReg k v).px r c = s.px r c := rfl
@[simp] theorem State.px_setFlag (f : Byte) (r c : Nat) : (s.setFlag f).px r c = s.px r c := rfl
@[simp] theorem State.px_setPc (p : Word) (r c : Nat) : (s.setPc p).px r c = s.px r c := rfl

/-- A key event is seen at its key and at no other (rule R323). -/
theorem State.keyHeld_setKey (k j : Nibble) (b : Bool) :
    (s.setKey k b).keyHeld j = if j = k then b else s.keyHeld j := by
  simp only [State.keyHeld, State.setKey, Vector.getElem_set, ← BitVec.toNat_inj, eq_comm]

/-! ### The stack (rules R142, R144) -/

@[simp] theorem State.sp_push (v : Word) (h : s.sp.val < 16) :
    ((s.push v h).sp : Nat) = s.sp.val + 1 := rfl

@[simp] theorem State.sp_pop : (s.pop.sp : Nat) = s.sp.val - 1 := rfl

/-- A push writes the entry at `sp` and no other. -/
theorem State.stack_push (v : Word) (h : s.sp.val < 16) (k : Nat) (hk : k < 16) :
    (s.push v h).stack[k]'hk = if k = s.sp.val then v else s.stack[k]'hk := by
  simp only [State.push, Vector.getElem_set, eq_comm]

/-- What was pushed is on top. -/
@[simp] theorem State.top_push (v : Word) (h : s.sp.val < 16) : (s.push v h).top = v := by
  simp [State.top, State.push]

/-! ### Register blocks (rules R222, R224) -/

@[simp] theorem State.length_regsUpTo (x : Nibble) : (s.regsUpTo x).length = x.toNat + 1 := by
  simp [State.regsUpTo]

@[simp] theorem State.length_loadBytes (base n : Nat) : (s.loadBytes base n).length = n := by
  simp [State.loadBytes]

/-- Loading a block changes the registers and nothing else. -/
theorem State.setRegs_eq (k : Nat) (bs : List Byte) :
    s.setRegs k bs = { s with V := (s.setRegs k bs).V } := by
  induction bs generalizing s k with
  | nil => rfl
  | cons b rest ih =>
    rw [State.setRegs, ih (s.setReg (BitVec.ofNat 4 k) b) (k + 1)]
    rfl

/-- Register `j` after a block load from register `k` on. -/
theorem State.reg_setRegs (k : Nat) (bs : List Byte) (h : k + bs.length ≤ 16) (j : Nibble) :
    (s.setRegs k bs).reg j =
      if k ≤ j.toNat then (bs[j.toNat - k]?).getD (s.reg j) else s.reg j := by
  induction bs generalizing s k with
  | nil => simp [State.setRegs]
  | cons b rest ih =>
    simp only [List.length_cons] at h
    have hk : (BitVec.ofNat 4 k).toNat = k := by
      rw [BitVec.toNat_ofNat]
      omega
    rw [State.setRegs, ih _ _ (by omega), State.reg_setReg]
    simp only [← BitVec.toNat_inj, hk]
    rcases Nat.lt_trichotomy j.toNat k with hlt | heq | hgt
    · rw [if_neg (by omega), if_neg (by omega), if_neg (by omega)]
    · subst heq
      simp
    · rw [if_pos (by omega), if_neg (by omega), if_pos (by omega)]
      obtain ⟨d, hd⟩ : ∃ d, j.toNat - k = d + 1 := ⟨j.toNat - k - 1, by omega⟩
      rw [hd, show j.toNat - (k + 1) = d by omega, List.getElem?_cons_succ]

end Sys2Proof.Machine
end

