-- ==== Sys2Proof/Laws/Ops.lean ====
section
/-! SUPPORT. One lemma for each shared operation: what a read gives after it, what it can answer,
and what it depends on. -/

namespace Sys2Proof.Machine

variable (s : State)

/-! ### Memory -/

/-- A block store is seen at its addresses and at no other (rules R63, R70). -/
theorem State.byteAt_storeBytes (base : Nat) (bytes : List Byte) (a : Nat) :
    (s.storeBytes base bytes).byteAt a =
      if base ≤ a then (bytes[a - base]?).getD (s.byteAt a) else s.byteAt a :=
  Cells.read_writeAll resetByte s.memory base bytes a

/-- A byte read is in range or raises (rule R66). -/
theorem State.memRead_of_le {a : Nat} (h : a ≤ 0xFFF) : s.memRead a = .ok (s.byteAt a) := by
  simp [State.memRead, h]

theorem State.memRead_of_gt {a : Nat} (h : 0xFFF < a) :
    s.memRead a = .error (.memoryOutOfRange a) := by
  simp [State.memRead, Nat.not_le.2 h]

/-- The register at place `k` of a block, for a block of registers (rule R222). -/
theorem State.getElem?_regsUpTo (x k : Nibble) :
    (s.regsUpTo x)[k.toNat]? = if k.toNat ≤ x.toNat then some (s.reg k) else none := by
  simp only [State.regsUpTo, List.getElem?_map]
  split
  · rw [List.getElem?_range (by omega)]
    simp
  · simp [show ¬k.toNat < x.toNat + 1 by omega]

/-- The byte at place `k` of a block of memory (rule R224). -/
theorem State.getElem?_loadBytes (base n k : Nat) :
    (s.loadBytes base n)[k]? = if k < n then some (s.byteAt (base + k)) else none := by
  simp only [State.loadBytes, List.getElem?_map]
  split
  · rw [List.getElem?_range (by omega)]
    rfl
  · simp [*]

/-! ### Answers -/

@[simp] theorem raise_eq (f : Fault) : raise f = .fault f := rfl

/-- The end of a step always answers a next state. -/
@[simp] theorem finish_eq (d : Disposition) :
    finish s d = .next (s.setPc (d.newPc s.pc)) := rfl

/-! ### Dispositions (rule R124) -/

@[simp] theorem newPc_next (pc : Word) : Disposition.next.newPc pc = pc + 2 := rfl
@[simp] theorem newPc_skip (pc : Word) : Disposition.skip.newPc pc = pc + 4 := rfl
@[simp] theorem newPc_set (t pc : Word) : (Disposition.set t).newPc pc = t := rfl
@[simp] theorem newPc_hold (pc : Word) : Disposition.hold.newPc pc = pc := rfl

/-- Writing `pc` back changes nothing: a hold, or a jump to itself. -/
@[simp] theorem State.setPc_self : s.setPc s.pc = s := rfl

/-! ### Answers of a checked access -/

/-- An access that is checked first completes exactly when its range is in memory and the rest of
the instruction completes (rule R66). -/
theorem withinMemory_next {base count : Nat} {body : Result} {t : State} :
    withinMemory base count body = .next t ↔
      (count = 0 ∨ base + count ≤ 0x1000) ∧ body = .next t := by
  unfold withinMemory
  split
  · simp only [raise_eq, reduceCtorEq, false_iff, not_and]
    omega
  · constructor
    · exact fun h => ⟨by omega, h⟩
    · exact fun h => h.2

theorem withinMemory_of_inside {base count : Nat} (body : Result)
    (h : count = 0 ∨ base + count ≤ 0x1000) : withinMemory base count body = body := by
  unfold withinMemory
  exact if_neg (by omega)

theorem withinMemory_of_outside {base count : Nat} (body : Result)
    (h0 : count ≠ 0) (h : 0x1000 < base + count) :
    withinMemory base count body = .fault (.memoryOutOfRange (max base 0x1000)) := by
  unfold withinMemory
  exact if_pos ⟨by omega, by omega⟩

/-- A fault of a checked access is the range fault or one of the rest. -/
theorem withinMemory_fault {base count : Nat} {body : Result} {f : Fault}
    (h : withinMemory base count body = .fault f) :
    f = .memoryOutOfRange (max base 0x1000) ∨ body = .fault f := by
  unfold withinMemory at h
  split at h
  · simp only [raise_eq, Host.Outcome.fault.injEq] at h
    exact .inl h.symm
  · exact .inr h

/-! ### Fetch -/

theorem State.fetch16_of_le {a : Nat} (h : a ≤ 0xFFE) :
    s.fetch16 a = .ok (joinBytes (s.byteAt a) (s.byteAt (a + 1))) := by
  simp only [State.fetch16, s.memRead_of_le (show a ≤ 0xFFF by omega),
    s.memRead_of_le (show a + 1 ≤ 0xFFF by omega)]

/-- Rule R68: the lowest missing address. -/
theorem State.fetch16_of_ge {a : Nat} (h : 0xFFF ≤ a) :
    s.fetch16 a = .error (.memoryOutOfRange (max a 0x1000)) := by
  rcases Nat.lt_or_ge 0xFFF a with hgt | hle
  · rw [State.fetch16, s.memRead_of_gt hgt, Nat.max_eq_left (by omega)]
  · obtain rfl : a = 0xFFF := by omega
    rw [State.fetch16, s.memRead_of_le (Nat.le_refl _), s.memRead_of_gt (by omega)]
    rfl

/-- A fetched instruction was at an address that can be fetched from, and its word decodes to
it. -/
theorem State.fetchInstr_ok {i : Instr} :
    s.fetchInstr = .ok i ↔ s.pc.toNat ≤ 0xFFE ∧
      decode (joinBytes (s.byteAt s.pc.toNat) (s.byteAt (s.pc.toNat + 1))) = .ok i := by
  unfold State.fetchInstr
  rcases Nat.lt_or_ge 0xFFE s.pc.toNat with hgt | hle
  · simp [s.fetch16_of_ge hgt, Nat.not_le.2 hgt]
  · simp only [s.fetch16_of_le hle, hle, true_and]
    split <;> simp_all

/-- Fetching depends on `pc` and memory alone. -/
theorem State.fetchInstr_congr {s t : State} (hpc : t.pc = s.pc) (hm : t.memory = s.memory) :
    t.fetchInstr = s.fetchInstr := by
  simp only [State.fetchInstr, State.fetch16, State.memRead, State.byteAt, hpc, hm]

/-- A step that completes ran the instruction it fetched. -/
theorem step_next {t : State} :
    step s = .next t ↔ ∃ i, s.fetchInstr = .ok i ∧ exec i s = .next t := by
  unfold step
  split <;> simp_all

/-! ### Screen -/

/-- A pixel write is seen at its pixel and at no other (rule R37). -/
theorem State.px_setPx {r c r' c' : Nat} (v : Byte) (hc : c < 64) (hc' : c' < 64) :
    (s.setPx r c v).px r' c' = if r' = r ∧ c' = c then v else s.px r' c' := by
  simp only [State.px, State.setPx, Cells.read_write]
  by_cases h : r' = r ∧ c' = c
  · simp [h]
  · rw [if_neg h, if_neg (by omega)]

@[simp] theorem State.px_clearPx (r c : Nat) : s.clearPx.px r c = 0 := rfl

end Sys2Proof.Machine
end

