-- ==== Sys2Proof/Laws/Display.lean ====
section
/-! SUPPORT. What the sprite blit does (`spec/45_display.md` rule R232): it toggles a list of pixels,
no pixel twice, so that the order of its loops cannot be seen. -/

namespace Sys2Proof.Machine

/-! ### Toggling a list of pixels -/

/-- Toggle the pixels of a list, in order. -/
def toggleAll (pixels : List (Nat × Nat)) (s : State) : State :=
  pixels.foldl (fun t p => togglePx p.1 p.2 t) s

/-- A toggle changes the flag register and the screen, and nothing else. -/
theorem togglePx_eq (r c : Nat) (s : State) :
    ∃ V screen, togglePx r c s = { s with V := V, screen := screen } := by
  unfold togglePx
  split <;> exact ⟨_, _, rfl⟩

theorem toggleAll_eq (pixels : List (Nat × Nat)) (s : State) :
    ∃ V screen, toggleAll pixels s = { s with V := V, screen := screen } := by
  induction pixels generalizing s with
  | nil => exact ⟨_, _, rfl⟩
  | cons p rest ih =>
    obtain ⟨V, screen, h⟩ := togglePx_eq p.1 p.2 s
    obtain ⟨V', screen', h'⟩ := ih (togglePx p.1 p.2 s)
    exact ⟨V', screen', by rw [h] at h'; exact (congrArg (toggleAll rest) h).trans h'⟩

/-- What `toggleAll_eq` says of the fields that the blit's loop reads. -/
theorem memory_toggleAll (pixels : List (Nat × Nat)) (s : State) :
    (toggleAll pixels s).memory = s.memory := by
  obtain ⟨V, screen, h⟩ := toggleAll_eq pixels s
  rw [h]

theorem I_toggleAll (pixels : List (Nat × Nat)) (s : State) :
    (toggleAll pixels s).I = s.I := by
  obtain ⟨V, screen, h⟩ := toggleAll_eq pixels s
  rw [h]

theorem reg_togglePx (r c : Nat) (s : State) (k : Nibble) :
    (togglePx r c s).reg k = if k = 0xF ∧ s.px r c = 1 then 1 else s.reg k := by
  unfold togglePx
  split
  · simp [State.reg_setFlag, *]
  · rename_i h
    rw [State.reg_setPx, if_neg fun hk => h hk.2]

theorem px_togglePx {r c r' c' : Nat} (s : State) (hc : c < 64) (hc' : c' < 64) :
    (togglePx r c s).px r' c' =
      if r' = r ∧ c' = c then s.px r c ^^^ 1 else s.px r' c' := by
  unfold togglePx
  rw [State.px_setPx _ _ hc hc']
  by_cases h : s.px r c = 1
  · rw [if_pos h, State.px_setFlag]
  · rw [if_neg h]

/-- Each pixel of the list is toggled, and every other is as before. -/
theorem px_toggleAll {pixels : List (Nat × Nat)} (hnd : pixels.Nodup)
    (hb : ∀ p ∈ pixels, p.2 < 64) (s : State) (r c : Nat) (hc : c < 64) :
    (toggleAll pixels s).px r c = s.px r c ^^^ (if (r, c) ∈ pixels then 1 else 0) := by
  induction pixels generalizing s with
  | nil => simp [toggleAll]
  | cons p rest ih =>
    obtain ⟨pr, pc⟩ := p
    obtain ⟨hp, hrest⟩ := List.nodup_cons.1 hnd
    show (toggleAll rest (togglePx pr pc s)).px r c = _
    rw [ih hrest (fun q hq => hb q (List.mem_cons_of_mem _ hq)),
      px_togglePx s (hb _ List.mem_cons_self) hc]
    by_cases h : r = pr ∧ c = pc
    · obtain ⟨rfl, rfl⟩ := h
      simp [hp]
    · have hne : ¬(r, c) = (pr, pc) := by simpa using h
      simp [h, hne]

/-- The flag is set if any of the pixels was 1, and is as before if none was; no other register
changes. -/
theorem reg_toggleAll {pixels : List (Nat × Nat)} (hnd : pixels.Nodup)
    (hb : ∀ p ∈ pixels, p.2 < 64) (s : State) (k : Nibble) :
    ((toggleAll pixels s).reg k = 1 ∧ k = 0xF ∧ ∃ p ∈ pixels, s.px p.1 p.2 = 1) ∨
      ((toggleAll pixels s).reg k = s.reg k ∧ (k = 0xF → ∀ p ∈ pixels, s.px p.1 p.2 ≠ 1)) := by
  induction pixels generalizing s with
  | nil => simp [toggleAll]
  | cons p rest ih =>
    obtain ⟨pr, pc⟩ := p
    obtain ⟨hp, hrest⟩ := List.nodup_cons.1 hnd
    have hb' : ∀ q ∈ rest, q.2 < 64 := fun q hq => hb q (List.mem_cons_of_mem _ hq)
    have hpc : pc < 64 := hb _ List.mem_cons_self
    have hsame : ∀ q ∈ rest, (togglePx pr pc s).px q.1 q.2 = s.px q.1 q.2 := by
      intro q hq
      rw [px_togglePx s hpc (hb' q hq), if_neg]
      rintro ⟨h1, h2⟩
      exact hp (by rwa [← h1, ← h2])
    show ((toggleAll rest (togglePx pr pc s)).reg k = 1 ∧ _) ∨ _
    rcases ih hrest hb' (togglePx pr pc s) with ⟨h1, hk, q, hq, h2⟩ | ⟨h1, h2⟩
    · exact .inl ⟨h1, hk, q, List.mem_cons_of_mem _ hq, hsame q hq ▸ h2⟩
    · by_cases hhit : k = 0xF ∧ s.px pr pc = 1
      · refine .inl ⟨?_, hhit.1, (pr, pc), List.mem_cons_self, hhit.2⟩
        rw [h1, reg_togglePx, if_pos hhit]
      · refine .inr ⟨?_, fun hk q hq => ?_⟩
        · show (toggleAll rest (togglePx pr pc s)).reg k = _
          rw [h1, reg_togglePx, if_neg hhit]
        · rcases List.mem_cons.1 hq with rfl | hq
          · exact fun h => hhit ⟨hk, h⟩
          · exact hsame q hq ▸ h2 hk q hq

/-- Toggling pixels of the screen keeps it canonical (rule R37). -/
theorem wf_toggleAll {pixels : List (Nat × Nat)} (hb : ∀ p ∈ pixels, p.1 < 32 ∧ p.2 < 64)
    (s : State) (h : Screen.wf s.screen) : Screen.wf (toggleAll pixels s).screen := by
  induction pixels generalizing s with
  | nil => exact h
  | cons p rest ih =>
    refine ih (fun q hq => hb q (List.mem_cons_of_mem _ hq)) _ ?_
    obtain ⟨h1, h2⟩ := hb _ List.mem_cons_self
    have hpx : s.px p.1 p.2 = 0 ∨ s.px p.1 p.2 = 1 := Screen.read_of_wf h _
    have : (togglePx p.1 p.2 s).screen =
        s.screen.write darkPixel (p.1 * 64 + p.2) (s.px p.1 p.2 ^^^ 1) := by
      unfold togglePx
      split <;> rfl
    rw [this]
    refine Screen.wf_write (by omega) ?_ h
    rcases hpx with h | h <;> simp [h]

/-! ### The sprite -/

/-- The pixels under the set bits of sprite byte `b`, drawn on screen row `row`. -/
def rowPixels (vx row : Nat) (b : Byte) : List (Nat × Nat) :=
  ((List.range 8).filter (spriteBit b)).map fun c => (row, (vx + c) % 64)

/-- The pixels under the set bits of the sprite of `rows` bytes at `memory[I]`. -/
def spritePixels (vx vy rows : Nat) (s : State) : List (Nat × Nat) :=
  (List.range rows).flatMap fun r =>
    rowPixels vx ((vy + r) % 32) (s.byteAt (baseAddress s + r))

theorem drawRow_eq (vx row : Nat) (b : Byte) (s : State) :
    drawRow vx row b s = toggleAll (rowPixels vx row b) s := by
  simp only [drawRow, toggleAll, rowPixels, List.foldl_map, List.foldl_filter]

/-- Rule R232 as a list of toggles: the sprite's bytes cannot change while it is drawn. -/
theorem drawSprite_eq (vx vy rows : Nat) (s : State) :
    drawSprite vx vy rows s = toggleAll (spritePixels vx vy rows s) s := by
  have hstep : ∀ (rs : List Nat) (t : State), t.memory = s.memory → t.I = s.I →
      rs.foldl (fun t r => drawRow vx ((vy + r) % 32) (t.byteAt (baseAddress t + r)) t) t =
        toggleAll (rs.flatMap fun r =>
          rowPixels vx ((vy + r) % 32) (s.byteAt (baseAddress s + r))) t := by
    intro rs
    induction rs with
    | nil => intros; rfl
    | cons r rest ih =>
      intro t hm hI
      have hbyte : t.byteAt (baseAddress t + r) = s.byteAt (baseAddress s + r) := by
        simp only [State.byteAt, baseAddress, hm, hI]
      rw [List.foldl_cons, List.flatMap_cons, hbyte, drawRow_eq,
        ih _ ((memory_toggleAll _ t).trans hm) ((I_toggleAll _ t).trans hI)]
      simp only [toggleAll, List.foldl_append]
  exact hstep _ s rfl rfl

theorem mem_rowPixels {vx row : Nat} {b : Byte} {r c : Nat} :
    (r, c) ∈ rowPixels vx row b ↔ r = row ∧ ∃ k < 8, spriteBit b k ∧ c = (vx + k) % 64 := by
  simp only [rowPixels, List.mem_map, List.mem_filter, List.mem_range, Prod.mk.injEq]
  constructor
  · rintro ⟨k, ⟨hk, hbit⟩, rfl, rfl⟩
    exact ⟨rfl, k, hk, hbit, rfl⟩
  · rintro ⟨rfl, k, hk, hbit, rfl⟩
    exact ⟨k, ⟨hk, hbit⟩, rfl, rfl⟩

theorem mem_spritePixels {vx vy rows : Nat} {s : State} {r c : Nat} :
    (r, c) ∈ spritePixels vx vy rows s ↔ ∃ j < rows, r = (vy + j) % 32 ∧
      ∃ k < 8, spriteBit (s.byteAt (baseAddress s + j)) k ∧ c = (vx + k) % 64 := by
  simp only [spritePixels, List.mem_flatMap, List.mem_range, mem_rowPixels]

/-- Every pixel of a sprite is on the screen (rule R232 (b)). -/
theorem spritePixels_on_screen {vx vy rows : Nat} {s : State} :
    ∀ p ∈ spritePixels vx vy rows s, p.1 < 32 ∧ p.2 < 64 := by
  rintro ⟨r, c⟩ h
  obtain ⟨j, -, rfl, k, -, -, rfl⟩ := mem_spritePixels.1 h
  exact ⟨Nat.mod_lt _ (by omega), Nat.mod_lt _ (by omega)⟩

/-- Rule R232 (d): within one `Draw` no pixel is touched twice. -/
theorem nodup_spritePixels {vx vy rows : Nat} (s : State) (hrows : rows ≤ 32) :
    (spritePixels vx vy rows s).Nodup := by
  refine List.nodup_flatMap.2 ⟨fun r _ => ?_, ?_⟩
  · refine List.Nodup.map_on ?_ (List.nodup_range.filter _)
    intro a ha b hb hab
    simp only [List.mem_filter, List.mem_range] at ha hb
    simp only [Prod.mk.injEq, true_and] at hab
    omega
  · refine List.nodup_range.imp_of_mem ?_
    intro a b ha hb hne
    simp only [List.mem_range] at ha hb
    rintro ⟨r, c⟩ h1 h2
    obtain ⟨rfl, -⟩ := mem_rowPixels.1 h1
    obtain ⟨h, -⟩ := mem_rowPixels.1 h2
    omega

end Sys2Proof.Machine
end

