-- ==== Sys2Proof/Laws/Frame.lean ====
section
/-! SUPPORT. Frames of the shared operations, and how frames combine: an instruction's frame is the
frames of its operations one after the other. -/

namespace Sys2Proof.Machine

variable {s t u : State} {regs regs' : List Nibble} {parts parts' : List Part}

theorem Part.same_refl (p : Part) (s : State) : p.same s s := by
  cases p with
  | stack => exact ⟨rfl, rfl⟩
  | memory => exact fun _ => rfl
  | screen => exact fun _ _ => rfl
  | _ => rfl

theorem Part.same_trans {p : Part} (h : p.same s t) (h' : p.same t u) : p.same s u := by
  cases p with
  | stack => exact ⟨h'.1.trans h.1, h'.2.trans h.2⟩
  | memory => exact fun a => (h' a).trans (h a)
  | screen => exact fun r c => (h' r c).trans (h r c)
  | _ => exact Eq.trans h' h

theorem Frame.refl (s : State) : Frame [] [] s s :=
  ⟨fun _ _ => rfl, fun p _ => p.same_refl s⟩

theorem Frame.mono (h : Frame regs parts s t) (hr : ∀ k ∈ regs, k ∈ regs')
    (hp : ∀ p ∈ parts, p ∈ parts') : Frame regs' parts' s t :=
  ⟨fun k hk => h.regs_same k (hk ∘ hr k), fun p hpp => h.parts_same p (hpp ∘ hp p)⟩

/-- Two frames one after the other, within the bounds of both. -/
theorem Frame.trans (h : Frame regs parts s t) (h' : Frame regs parts t u) :
    Frame regs parts s u :=
  ⟨fun k hk => (h'.regs_same k hk).trans (h.regs_same k hk),
    fun p hp => Part.same_trans (h.parts_same p hp) (h'.parts_same p hp)⟩

/-- A frame from one equation between fields for each part that may not change. -/
theorem Frame.of_fields (hr : ∀ k, k ∉ regs → t.reg k = s.reg k)
    (hindex : .index ∈ parts ∨ t.I = s.I)
    (hpc : .pc ∈ parts ∨ t.pc = s.pc)
    (hstack : .stack ∈ parts ∨ t.sp = s.sp ∧ t.stack = s.stack)
    (hdelayTimer : .delayTimer ∈ parts ∨ t.DT = s.DT)
    (hsoundTimer : .soundTimer ∈ parts ∨ t.ST = s.ST)
    (hkeypad : .keypad ∈ parts ∨ t.key = s.key)
    (hlatch : .latch ∈ parts ∨ t.latch = s.latch)
    (hmemory : .memory ∈ parts ∨ t.memory = s.memory)
    (hscreen : .screen ∈ parts ∨ t.screen = s.screen)
    (hdraws : .draws ∈ parts ∨ t.draws = s.draws) : Frame regs parts s t := by
  refine ⟨hr, fun p hp => ?_⟩
  cases p with
  | memory => exact fun a => by rw [State.byteAt, hmemory.resolve_left hp]; rfl
  | screen => exact fun r c => by rw [State.px, hscreen.resolve_left hp]; rfl
  | index => exact hindex.resolve_left hp
  | pc => exact hpc.resolve_left hp
  | stack => exact hstack.resolve_left hp
  | delayTimer => exact hdelayTimer.resolve_left hp
  | soundTimer => exact hsoundTimer.resolve_left hp
  | keypad => exact hkeypad.resolve_left hp
  | latch => exact hlatch.resolve_left hp
  | draws => exact hdraws.resolve_left hp

/-! ### One operation each -/

theorem frame_setPc (s : State) (v : Word) :
    Frame [] [.pc] s (s.setPc v) :=
  .of_fields (fun _ _ => rfl)
    (.inr rfl) (.inl (by decide)) (.inr ⟨rfl, rfl⟩) (.inr rfl) (.inr rfl)
    (.inr rfl) (.inr rfl) (.inr rfl) (.inr rfl) (.inr rfl)

theorem frame_setReg (s : State) (k : Nibble) (v : Byte) :
    Frame [k] [] s (s.setReg k v) :=
  .of_fields (fun _ hj => State.reg_setReg_other s v (by simpa using hj))
    (.inr rfl) (.inr rfl) (.inr ⟨rfl, rfl⟩) (.inr rfl) (.inr rfl)
    (.inr rfl) (.inr rfl) (.inr rfl) (.inr rfl) (.inr rfl)

theorem frame_setIndex (s : State) (v : Word) :
    Frame [] [.index] s (s.setIndex v) :=
  .of_fields (fun _ _ => rfl)
    (.inl (by decide)) (.inr rfl) (.inr ⟨rfl, rfl⟩) (.inr rfl) (.inr rfl)
    (.inr rfl) (.inr rfl) (.inr rfl) (.inr rfl) (.inr rfl)

theorem frame_push (s : State) (v : Word) (h : s.sp.val < 16) :
    Frame [] [.stack] s (s.push v h) :=
  .of_fields (fun _ _ => rfl)
    (.inr rfl) (.inr rfl) (.inl (by decide)) (.inr rfl) (.inr rfl)
    (.inr rfl) (.inr rfl) (.inr rfl) (.inr rfl) (.inr rfl)

theorem frame_pop (s : State) :
    Frame [] [.stack] s (s.pop) :=
  .of_fields (fun _ _ => rfl)
    (.inr rfl) (.inr rfl) (.inl (by decide)) (.inr rfl) (.inr rfl)
    (.inr rfl) (.inr rfl) (.inr rfl) (.inr rfl) (.inr rfl)

theorem frame_setDT (s : State) (v : Byte) :
    Frame [] [.delayTimer] s (s.setDT v) :=
  .of_fields (fun _ _ => rfl)
    (.inr rfl) (.inr rfl) (.inr ⟨rfl, rfl⟩) (.inl (by decide)) (.inr rfl)
    (.inr rfl) (.inr rfl) (.inr rfl) (.inr rfl) (.inr rfl)

theorem frame_setST (s : State) (v : Byte) :
    Frame [] [.soundTimer] s (s.setST v) :=
  .of_fields (fun _ _ => rfl)
    (.inr rfl) (.inr rfl) (.inr ⟨rfl, rfl⟩) (.inr rfl) (.inl (by decide))
    (.inr rfl) (.inr rfl) (.inr rfl) (.inr rfl) (.inr rfl)

theorem frame_setKey (s : State) (k : Nibble) (b : Bool) :
    Frame [] [.keypad] s (s.setKey k b) :=
  .of_fields (fun _ _ => rfl)
    (.inr rfl) (.inr rfl) (.inr ⟨rfl, rfl⟩) (.inr rfl) (.inr rfl)
    (.inl (by decide)) (.inr rfl) (.inr rfl) (.inr rfl) (.inr rfl)

theorem frame_setLatch (s : State) (v : Option Nibble) :
    Frame [] [.latch] s (s.setLatch v) :=
  .of_fields (fun _ _ => rfl)
    (.inr rfl) (.inr rfl) (.inr ⟨rfl, rfl⟩) (.inr rfl) (.inr rfl)
    (.inr rfl) (.inl (by decide)) (.inr rfl) (.inr rfl) (.inr rfl)

theorem frame_countDraw (s : State) :
    Frame [] [.draws] s (s.countDraw) :=
  .of_fields (fun _ _ => rfl)
    (.inr rfl) (.inr rfl) (.inr ⟨rfl, rfl⟩) (.inr rfl) (.inr rfl)
    (.inr rfl) (.inr rfl) (.inr rfl) (.inr rfl) (.inl (by decide))

theorem frame_storeBytes (s : State) (base : Nat) (bytes : List Byte) :
    Frame [] [.memory] s (s.storeBytes base bytes) :=
  .of_fields (fun _ _ => rfl)
    (.inr rfl) (.inr rfl) (.inr ⟨rfl, rfl⟩) (.inr rfl) (.inr rfl)
    (.inr rfl) (.inr rfl) (.inl (by decide)) (.inr rfl) (.inr rfl)

theorem frame_clearPx (s : State) :
    Frame [] [.screen] s (s.clearPx) :=
  .of_fields (fun _ _ => rfl)
    (.inr rfl) (.inr rfl) (.inr ⟨rfl, rfl⟩) (.inr rfl) (.inr rfl)
    (.inr rfl) (.inr rfl) (.inr rfl) (.inl (by decide)) (.inr rfl)

theorem frame_setRegs (s : State) (k : Nat) (bytes : List Byte) :
    Frame ((List.range (k + bytes.length)).map (BitVec.ofNat 4)) [] s (s.setRegs k bytes) := by
  induction bytes generalizing s k with
  | nil => exact (Frame.refl s).mono (by simp) (by simp)
  | cons b rest ih =>
    refine Frame.trans ((frame_setReg s (BitVec.ofNat 4 k) b).mono ?_ (by simp))
      ((ih (s.setReg (BitVec.ofNat 4 k) b) (k + 1)).mono ?_ (by simp))
    · intro j hj
      rw [List.mem_singleton.1 hj]
      exact List.mem_map_of_mem (List.mem_range.2 (by simp only [List.length_cons]; omega))
    · intro j hj
      rwa [List.length_cons, show k + (rest.length + 1) = k + 1 + rest.length by omega]

theorem frame_toggleAll (pixels : List (Nat × Nat)) (s : State) :
    Frame [0xF] [.screen] s (toggleAll pixels s) := by
  obtain ⟨V, screen, h⟩ := toggleAll_eq pixels s
  refine .of_fields (fun k hk => ?_) ?_ ?_ ?_ ?_ ?_ ?_ ?_ ?_ (.inl (by decide)) ?_
  · clear h
    induction pixels generalizing s with
    | nil => rfl
    | cons q rest ih =>
      refine (ih (togglePx q.1 q.2 s)).trans ?_
      rw [reg_togglePx, if_neg fun h => hk (by simp [h.1])]
  · exact .inr (by rw [h])
  · exact .inr (by rw [h])
  · exact .inr ⟨by rw [h], by rw [h]⟩
  · exact .inr (by rw [h])
  · exact .inr (by rw [h])
  · exact .inr (by rw [h])
  · exact .inr (by rw [h])
  · exact .inr (by rw [h])
  · exact .inr (by rw [h])

end Sys2Proof.Machine
end

