-- ==== Sys2Proof/Laws/PerInstr.lean ====
section
/-! SUPPORT. The per-instruction family `EncodedRow`: the word of an instruction
selects the row of the opcode map (`spec/30_encoding.md` rule R100) that has its name. -/

namespace Sys2Proof.Laws

/-! ### Masking a word written as its parts -/

theorem mask_address (g : Nibble) (a : Addr) : (g ++ a) &&& 0xF000#16 = g ++ 0x000#12 := by
  rw [show 0xF000#16 = BitVec.allOnes 4 ++ 0x000#12 from rfl, BitVec.and_append]
  simp only [BitVec.and_allOnes, BitVec.and_zero]

theorem mask_value (g x : Nibble) (v : Byte) :
    (g ++ x ++ v) &&& 0xF000#16 = g ++ 0x0#4 ++ 0x00#8 := by
  rw [show 0xF000#16 = BitVec.allOnes 4 ++ 0x0#4 ++ 0x00#8 from rfl, BitVec.and_append,
    BitVec.and_append]
  simp only [BitVec.and_allOnes, BitVec.and_zero]

theorem mask_lowByte (g x : Nibble) (v : Byte) :
    (g ++ x ++ v) &&& 0xF0FF#16 = g ++ 0x0#4 ++ v := by
  rw [show 0xF0FF#16 = BitVec.allOnes 4 ++ 0x0#4 ++ BitVec.allOnes 8 from rfl,
    BitVec.and_append, BitVec.and_append]
  simp only [BitVec.and_allOnes, BitVec.and_zero]

theorem mask_group (g x y n : Nibble) :
    (g ++ x ++ y ++ n) &&& 0xF000#16 = g ++ 0x0#4 ++ 0x0#4 ++ 0x0#4 := by
  rw [show 0xF000#16 = BitVec.allOnes 4 ++ 0x0#4 ++ 0x0#4 ++ 0x0#4 from rfl,
    BitVec.and_append, BitVec.and_append, BitVec.and_append]
  simp only [BitVec.and_allOnes, BitVec.and_zero]

theorem mask_lowNibble (g x y n : Nibble) :
    (g ++ x ++ y ++ n) &&& 0xF00F#16 = g ++ 0x0#4 ++ 0x0#4 ++ n := by
  rw [show 0xF00F#16 = BitVec.allOnes 4 ++ 0x0#4 ++ 0x0#4 ++ BitVec.allOnes 4 from rfl,
    BitVec.and_append, BitVec.and_append, BitVec.and_append]
  simp only [BitVec.and_allOnes, BitVec.and_zero]

namespace EncodedRow

/-- Some row of the map has the instruction's name, and the instruction's word selects it. -/
def Statement (i : Instr) : Prop :=
  ∃ row ∈ opcodeTable, row.mnemonic = i.mnemonic ∧ row.selects (encodeWord i) = true

theorem clearScreen : Statement .clearScreen :=
  ⟨⟨"ClearScreen", 0x00E0, 0xFFFF⟩, by decide, rfl, rfl⟩

theorem returnFromSubroutine : Statement .returnFromSubroutine :=
  ⟨⟨"Return", 0x00EE, 0xFFFF⟩, by decide, rfl, rfl⟩

theorem callMachineLanguageSubroutine (a : Addr) : Statement (.callMachineLanguageSubroutine a) :=
  ⟨⟨"CallMachineLanguageSubroutine", 0x0000, 0xF000⟩, by decide, rfl, beq_iff_eq.2 (mask_address ..)⟩

theorem jumpAbsolute (a : Addr) : Statement (.jumpAbsolute a) :=
  ⟨⟨"JumpAbsolute", 0x1000, 0xF000⟩, by decide, rfl, beq_iff_eq.2 (mask_address ..)⟩

theorem callSubroutine (a : Addr) : Statement (.callSubroutine a) :=
  ⟨⟨"CallSubroutine", 0x2000, 0xF000⟩, by decide, rfl, beq_iff_eq.2 (mask_address ..)⟩

theorem skipIfEqualValue (x : Nibble) (v : Byte) : Statement (.skipIfEqualValue x v) :=
  ⟨⟨"SkipIfEqualValue", 0x3000, 0xF000⟩, by decide, rfl, beq_iff_eq.2 (mask_value ..)⟩

theorem skipIfNotEqualValue (x : Nibble) (v : Byte) : Statement (.skipIfNotEqualValue x v) :=
  ⟨⟨"SkipIfNotEqualValue", 0x4000, 0xF000⟩, by decide, rfl, beq_iff_eq.2 (mask_value ..)⟩

theorem skipIfEqualRegister (x y : Nibble) : Statement (.skipIfEqualRegister x y) :=
  ⟨⟨"SkipIfEqualRegister", 0x5000, 0xF00F⟩, by decide, rfl, beq_iff_eq.2 (mask_lowNibble ..)⟩

theorem setValue (x : Nibble) (v : Byte) : Statement (.setValue x v) :=
  ⟨⟨"SetValue", 0x6000, 0xF000⟩, by decide, rfl, beq_iff_eq.2 (mask_value ..)⟩

theorem addValue (x : Nibble) (v : Byte) : Statement (.addValue x v) :=
  ⟨⟨"AddValue", 0x7000, 0xF000⟩, by decide, rfl, beq_iff_eq.2 (mask_value ..)⟩

theorem setRegister (x y : Nibble) : Statement (.setRegister x y) :=
  ⟨⟨"SetRegister", 0x8000, 0xF00F⟩, by decide, rfl, beq_iff_eq.2 (mask_lowNibble ..)⟩

theorem orRegister (x y : Nibble) : Statement (.orRegister x y) :=
  ⟨⟨"OrRegister", 0x8001, 0xF00F⟩, by decide, rfl, beq_iff_eq.2 (mask_lowNibble ..)⟩

theorem andRegister (x y : Nibble) : Statement (.andRegister x y) :=
  ⟨⟨"AndRegister", 0x8002, 0xF00F⟩, by decide, rfl, beq_iff_eq.2 (mask_lowNibble ..)⟩

theorem xorRegister (x y : Nibble) : Statement (.xorRegister x y) :=
  ⟨⟨"XorRegister", 0x8003, 0xF00F⟩, by decide, rfl, beq_iff_eq.2 (mask_lowNibble ..)⟩

theorem addRegister (x y : Nibble) : Statement (.addRegister x y) :=
  ⟨⟨"AddRegister", 0x8004, 0xF00F⟩, by decide, rfl, beq_iff_eq.2 (mask_lowNibble ..)⟩

theorem subtractYFromX (x y : Nibble) : Statement (.subtractYFromX x y) :=
  ⟨⟨"SubtractYFromX", 0x8005, 0xF00F⟩, by decide, rfl, beq_iff_eq.2 (mask_lowNibble ..)⟩

theorem shiftRight (x y : Nibble) : Statement (.shiftRight x y) :=
  ⟨⟨"ShiftRight", 0x8006, 0xF00F⟩, by decide, rfl, beq_iff_eq.2 (mask_lowNibble ..)⟩

theorem subtractXFromY (x y : Nibble) : Statement (.subtractXFromY x y) :=
  ⟨⟨"SubtractXFromY", 0x8007, 0xF00F⟩, by decide, rfl, beq_iff_eq.2 (mask_lowNibble ..)⟩

theorem shiftLeft (x y : Nibble) : Statement (.shiftLeft x y) :=
  ⟨⟨"ShiftLeft", 0x800E, 0xF00F⟩, by decide, rfl, beq_iff_eq.2 (mask_lowNibble ..)⟩

theorem skipIfNotEqualRegister (x y : Nibble) : Statement (.skipIfNotEqualRegister x y) :=
  ⟨⟨"SkipIfNotEqualRegister", 0x9000, 0xF00F⟩, by decide, rfl, beq_iff_eq.2 (mask_lowNibble ..)⟩

theorem setIndex (a : Addr) : Statement (.setIndex a) :=
  ⟨⟨"SetIndex", 0xA000, 0xF000⟩, by decide, rfl, beq_iff_eq.2 (mask_address ..)⟩

theorem jumpRelative (a : Addr) : Statement (.jumpRelative a) :=
  ⟨⟨"JumpRelative", 0xB000, 0xF000⟩, by decide, rfl, beq_iff_eq.2 (mask_address ..)⟩

theorem andRandom (x : Nibble) (v : Byte) : Statement (.andRandom x v) :=
  ⟨⟨"AndRandom", 0xC000, 0xF000⟩, by decide, rfl, beq_iff_eq.2 (mask_value ..)⟩

theorem draw (x y n : Nibble) : Statement (.draw x y n) :=
  ⟨⟨"Draw", 0xD000, 0xF000⟩, by decide, rfl, beq_iff_eq.2 (mask_group ..)⟩

theorem skipIfKeyPressed (x : Nibble) : Statement (.skipIfKeyPressed x) :=
  ⟨⟨"SkipIfKeyPressed", 0xE09E, 0xF0FF⟩, by decide, rfl, beq_iff_eq.2 (mask_lowByte ..)⟩

theorem skipIfKeyNotPressed (x : Nibble) : Statement (.skipIfKeyNotPressed x) :=
  ⟨⟨"SkipIfKeyNotPressed", 0xE0A1, 0xF0FF⟩, by decide, rfl, beq_iff_eq.2 (mask_lowByte ..)⟩

theorem storeDelayTimer (x : Nibble) : Statement (.storeDelayTimer x) :=
  ⟨⟨"StoreDelayTimer", 0xF007, 0xF0FF⟩, by decide, rfl, beq_iff_eq.2 (mask_lowByte ..)⟩

theorem awaitKeyPress (x : Nibble) : Statement (.awaitKeyPress x) :=
  ⟨⟨"AwaitKeyPress", 0xF00A, 0xF0FF⟩, by decide, rfl, beq_iff_eq.2 (mask_lowByte ..)⟩

theorem setDelayTimer (x : Nibble) : Statement (.setDelayTimer x) :=
  ⟨⟨"SetDelayTimer", 0xF015, 0xF0FF⟩, by decide, rfl, beq_iff_eq.2 (mask_lowByte ..)⟩

theorem setSoundTimer (x : Nibble) : Statement (.setSoundTimer x) :=
  ⟨⟨"SetSoundTimer", 0xF018, 0xF0FF⟩, by decide, rfl, beq_iff_eq.2 (mask_lowByte ..)⟩

theorem addIndex (x : Nibble) : Statement (.addIndex x) :=
  ⟨⟨"AddIndex", 0xF01E, 0xF0FF⟩, by decide, rfl, beq_iff_eq.2 (mask_lowByte ..)⟩

theorem setIndexFontCharacter (x : Nibble) : Statement (.setIndexFontCharacter x) :=
  ⟨⟨"SetIndexFontCharacter", 0xF029, 0xF0FF⟩, by decide, rfl, beq_iff_eq.2 (mask_lowByte ..)⟩

theorem storeBCD (x : Nibble) : Statement (.storeBCD x) :=
  ⟨⟨"StoreBCD", 0xF033, 0xF0FF⟩, by decide, rfl, beq_iff_eq.2 (mask_lowByte ..)⟩

theorem writeMemory (x : Nibble) : Statement (.writeMemory x) :=
  ⟨⟨"WriteMemory", 0xF055, 0xF0FF⟩, by decide, rfl, beq_iff_eq.2 (mask_lowByte ..)⟩

theorem readMemory (x : Nibble) : Statement (.readMemory x) :=
  ⟨⟨"ReadMemory", 0xF065, 0xF0FF⟩, by decide, rfl, beq_iff_eq.2 (mask_lowByte ..)⟩

end EncodedRow

end Sys2Proof.Laws
end

