-- ==== Sys2Proof/Machine/Assembler.lean ====
section
/-! DEFINITION. The constructor form of an instruction as text (`spec/30_encoding.md` rule R110):
writing it, and reading it back. DOC0 has no assembler; the form is the spec's own (decision D28).
The rule says nothing of blanks; where they may stand is a choice of the model (log entry 11). -/

namespace Sys2Proof.Machine

/-! ### Blanks -/

/-- The text without the blanks before and after it. DESIGN CHOICE (log entry 11): blanks may stand
around a name, an operand, a field name and a number, and never inside one. -/
def trimBlanks (text : List Char) : List Char :=
  ((text.dropWhile (· = ' ')).reverse.dropWhile (· = ' ')).reverse

/-! ### Reading numbers -/

/-- The value of a hexadecimal digit: its place among `hexDigits`. DESIGN CHOICE (log entry 11): in
either case. -/
def hexValue (c : Char) : Option Nat := hexDigits.idxOf? c.toUpper

/-- Digits of the given base, most significant first, after the value `acc`. -/
def readDigits (base : Nat) : List Char → Nat → Option Nat
  | [], acc => some acc
  | c :: rest, acc =>
    match hexValue c with
    | some d => if d < base then readDigits base rest (acc * base + d) else none
    | none => none

/-- `number` of rule R110: `0x` and hexadecimal digits, or decimal digits; at least one digit. -/
def readNumber : List Char → Option Nat
  | '0' :: 'x' :: c :: rest => readDigits 16 (c :: rest) 0
  | c :: rest => readDigits 10 (c :: rest) 0
  | [] => none

/-! ### Reading operands -/

/-- Cut at every `sep`; there is always a first piece. -/
def cutAt (sep : Char) : List Char → List (List Char)
  | [] => [[]]
  | c :: rest =>
    match cutAt sep rest with
    | [] => [[c]]
    | piece :: more => if c = sep then [] :: piece :: more else (c :: piece) :: more

/-- `operand` of rule R110 for the field called `name`, `width` bits wide: an optional `name=`, and
a number. A number out of the field's range is an error of the assembler. DESIGN CHOICE (log entry
11): the label must be the name of the field that stands at this place; the rule says only that it is
one of the five field names. -/
def readOperand (name : String) (width : Nat) (text : List Char) : Option (BitVec width) :=
  let number := match cutAt '=' text with
    | [n] => readNumber (trimBlanks n)
    | [label, n] => if trimBlanks label = name.toList then readNumber (trimBlanks n) else none
    | _ => none
  match number with
  | some n => if n < 2 ^ width then some (BitVec.ofNat width n) else none
  | none => none

/-- The second operand of a shift: it "may be written `_`, meaning `y = 0`" (rule R110). -/
def readShiftOperand (text : List Char) : Option Nibble :=
  if trimBlanks text = ['_'] then some 0 else readOperand "y" 4 text

/-- The name, and the operands if there is a pair of parentheses around them. -/
def splitForm (text : List Char) : Option (List Char × List (List Char)) :=
  let name := text.takeWhile (· != '(')
  match text.dropWhile (· != '(') with
  | [] => some (trimBlanks name, [])
  | _ :: inside =>
    if inside.getLast? = some ')' then some (trimBlanks name, cutAt ',' inside.dropLast) else none

/-! ### The forms -/

/-- One operand, an address. -/
def readAddressForm (f : Addr → Instr) : List (List Char) → Option Instr
  | [a] => (readOperand "address" 12 a).map f
  | _ => none

/-- One operand, a register. -/
def readXForm (f : Nibble → Instr) : List (List Char) → Option Instr
  | [x] => (readOperand "x" 4 x).map f
  | _ => none

/-- A register and a constant. -/
def readXValueForm (f : Nibble → Byte → Instr) : List (List Char) → Option Instr
  | [x, v] =>
    match readOperand "x" 4 x, readOperand "value" 8 v with
    | some x, some v => some (f x v)
    | _, _ => none
  | _ => none

/-- Two registers. -/
def readXYForm (f : Nibble → Nibble → Instr) : List (List Char) → Option Instr
  | [x, y] =>
    match readOperand "x" 4 x, readOperand "y" 4 y with
    | some x, some y => some (f x y)
    | _, _ => none
  | _ => none

/-- The two operands of a shift. -/
def readShiftForm (f : Nibble → Nibble → Instr) : List (List Char) → Option Instr
  | [x, y] =>
    match readOperand "x" 4 x, readShiftOperand y with
    | some x, some y => some (f x y)
    | _, _ => none
  | _ => none

/-- The three operands of `Draw`. -/
def readDrawForm : List (List Char) → Option Instr
  | [x, y, rows] =>
    match readOperand "x" 4 x, readOperand "y" 4 y, readOperand "rows" 4 rows with
    | some x, some y, some rows => some (.draw x y rows)
    | _, _, _ => none
  | _ => none

/-- No operands. -/
def readBareForm (i : Instr) : List (List Char) → Option Instr
  | [] => some i
  | _ => none

/-- The variant of that name, with its operands in the order of rule R100. -/
def readForm (name : String) : List (List Char) → Option Instr :=
  match name with
  | "ClearScreen" => readBareForm .clearScreen
  | "Return" => readBareForm .returnFromSubroutine
  | "CallMachineLanguageSubroutine" => readAddressForm .callMachineLanguageSubroutine
  | "JumpAbsolute" => readAddressForm .jumpAbsolute
  | "CallSubroutine" => readAddressForm .callSubroutine
  | "SkipIfEqualValue" => readXValueForm .skipIfEqualValue
  | "SkipIfNotEqualValue" => readXValueForm .skipIfNotEqualValue
  | "SkipIfEqualRegister" => readXYForm .skipIfEqualRegister
  | "SetValue" => readXValueForm .setValue
  | "AddValue" => readXValueForm .addValue
  | "SetRegister" => readXYForm .setRegister
  | "OrRegister" => readXYForm .orRegister
  | "AndRegister" => readXYForm .andRegister
  | "XorRegister" => readXYForm .xorRegister
  | "AddRegister" => readXYForm .addRegister
  | "SubtractYFromX" => readXYForm .subtractYFromX
  | "ShiftRight" => readShiftForm .shiftRight
  | "SubtractXFromY" => readXYForm .subtractXFromY
  | "ShiftLeft" => readShiftForm .shiftLeft
  | "SkipIfNotEqualRegister" => readXYForm .skipIfNotEqualRegister
  | "SetIndex" => readAddressForm .setIndex
  | "JumpRelative" => readAddressForm .jumpRelative
  | "AndRandom" => readXValueForm .andRandom
  | "Draw" => readDrawForm
  | "SkipIfKeyPressed" => readXForm .skipIfKeyPressed
  | "SkipIfKeyNotPressed" => readXForm .skipIfKeyNotPressed
  | "StoreDelayTimer" => readXForm .storeDelayTimer
  | "AwaitKeyPress" => readXForm .awaitKeyPress
  | "SetDelayTimer" => readXForm .setDelayTimer
  | "SetSoundTimer" => readXForm .setSoundTimer
  | "AddIndex" => readXForm .addIndex
  | "SetIndexFontCharacter" => readXForm .setIndexFontCharacter
  | "StoreBCD" => readXForm .storeBCD
  | "WriteMemory" => readXForm .writeMemory
  | "ReadMemory" => readXForm .readMemory
  | _ => fun _ => none

/-- `instruction` of rule R110. A value that rule R105 does not allow is not constructible. -/
def assemble (text : String) : Option Instr :=
  match splitForm (trimBlanks text.toList) with
  | some (name, operands) =>
    match readForm (String.ofList name) operands with
    | some i => if i.wf then some i else none
    | none => none
  | none => none

/-! ### Writing -/

/-- The operands of an instruction in constructor form, hexadecimal, in the order of rule R100. -/
def operandTexts : Instr → List String
  | .clearScreen => []
  | .returnFromSubroutine => []
  | .callMachineLanguageSubroutine a => [spellAddress a]
  | .jumpAbsolute a => [spellAddress a]
  | .callSubroutine a => [spellAddress a]
  | .skipIfEqualValue x v => [spellRows x, spellValue v]
  | .skipIfNotEqualValue x v => [spellRows x, spellValue v]
  | .skipIfEqualRegister x y => [spellRows x, spellRows y]
  | .setValue x v => [spellRows x, spellValue v]
  | .addValue x v => [spellRows x, spellValue v]
  | .setRegister x y => [spellRows x, spellRows y]
  | .orRegister x y => [spellRows x, spellRows y]
  | .andRegister x y => [spellRows x, spellRows y]
  | .xorRegister x y => [spellRows x, spellRows y]
  | .addRegister x y => [spellRows x, spellRows y]
  | .subtractYFromX x y => [spellRows x, spellRows y]
  | .shiftRight x y => [spellRows x, spellRows y]
  | .subtractXFromY x y => [spellRows x, spellRows y]
  | .shiftLeft x y => [spellRows x, spellRows y]
  | .skipIfNotEqualRegister x y => [spellRows x, spellRows y]
  | .setIndex a => [spellAddress a]
  | .jumpRelative a => [spellAddress a]
  | .andRandom x v => [spellRows x, spellValue v]
  | .draw x y n => [spellRows x, spellRows y, spellRows n]
  | .skipIfKeyPressed x => [spellRows x]
  | .skipIfKeyNotPressed x => [spellRows x]
  | .storeDelayTimer x => [spellRows x]
  | .awaitKeyPress x => [spellRows x]
  | .setDelayTimer x => [spellRows x]
  | .setSoundTimer x => [spellRows x]
  | .addIndex x => [spellRows x]
  | .setIndexFontCharacter x => [spellRows x]
  | .storeBCD x => [spellRows x]
  | .writeMemory x => [spellRows x]
  | .readMemory x => [spellRows x]

/-- Texts with a comma and a blank between them. -/
def joinComma : List String → String
  | [] => ""
  | [t] => t
  | t :: rest => t ++ ", " ++ joinComma rest

/-- An instruction in the constructor form of rule R110. -/
def assemblyText (i : Instr) : String :=
  match operandTexts i with
  | [] => i.mnemonic
  | texts => i.mnemonic ++ "(" ++ joinComma texts ++ ")"

end Sys2Proof.Machine
end

