-- ==== Sys2Proof/Tests/Slice0.lean ====
section
/-! SUPPORT. Tests. Each expected value is one that `spec/95_test_vectors.md` states (its section or
row is named), or, for a word's decoding, the row of rule R100 written out by hand. The theorems
`witness_<Name>` show for the obligation `<Name>` that its hypotheses are met, each clause at the
boundary of its range. -/

namespace Sys2Proof.Tests

open Sys2Proof Sys2Proof.Machine

/-! ### Helpers -/

/-- The reset state with changes, and with one word where the next step fetches. -/
def startAt (w : Nat) (changes : State → State) : State :=
  (changes State.reset).withFetchWord 16 w

/-- The outcome is a next state that the check accepts. -/
def goes (r : Result) (check : State → Bool) : Bool :=
  match r with
  | .next t => check t
  | .fault _ => false
  | .refused _ => false

/-- The outcome is that fault. -/
def stops (r : Result) (f : Fault) : Bool :=
  match r with
  | .fault g => decide (g = f)
  | .next _ => false
  | .refused _ => false

/-- Two registers set. -/
def withTwo (x : Nibble) (a : Byte) (y : Nibble) (b : Byte) (s : State) : State :=
  (s.setReg x a).setReg y b

/-- `n` stack entries in use, all `0x0456`. -/
def withStack (n : Fin 17) (s : State) : State :=
  { s with sp := n, stack := Vector.replicate 16 0x0456 }

/-- One step of the word `w` from two set registers leaves `vx` in register `x` and `vf` in `VF`. -/
def aluStep (w : Nat) (x : Nibble) (a : Byte) (y : Nibble) (b : Byte) (vx vf : Byte) : Bool :=
  goes (step (startAt w (withTwo x a y b)))
    fun t => t.reg x == vx && t.reg 0xF == vf && t.pc == 0x202

/-- `pc` after one step. -/
def goesTo (w : Nat) (changes : State → State) (pc : Word) : Bool :=
  goes (step (startAt w changes)) fun t => t.pc == pc

/-- The `redraw` output of one step. -/
def redrawOf (s : State) : Option Bool :=
  match stepCycle s with
  | .next (_, out) => some out.redraw
  | .fault _ => none
  | .refused _ => none

/-! ### WellFormed (rule R105): the two values that are not constructible, and their neighbour -/

theorem test_wf_refuses_0E0 : (Instr.callMachineLanguageSubroutine 0x0E0).wf = false := by decide
theorem test_wf_refuses_0EE : (Instr.callMachineLanguageSubroutine 0x0EE).wf = false := by decide
theorem test_wf_accepts_0E1 : (Instr.callMachineLanguageSubroutine 0x0E1).wf = true := by decide

/-! ### Decode: a word of every row, with the fields in different nibbles -/

theorem test_decode_group_0 :
    decode 0b0000000011100000 = .ok .clearScreen ∧
    decode 0b0000000011101110 = .ok .returnFromSubroutine ∧
    decode 0b0000000100100011 = .ok (.callMachineLanguageSubroutine 0x123) := by decide

theorem test_decode_addresses :
    decode 0b0001101010111100 = .ok (.jumpAbsolute 0xABC) ∧
    decode 0b0010101010111100 = .ok (.callSubroutine 0xABC) ∧
    decode 0b1010000100100011 = .ok (.setIndex 0x123) ∧
    decode 0b1011000100100011 = .ok (.jumpRelative 0x123) := by decide

theorem test_decode_register_and_value :
    decode 0b0011000101000010 = .ok (.skipIfEqualValue 0x1 0x42) ∧
    decode 0b0100000101000010 = .ok (.skipIfNotEqualValue 0x1 0x42) ∧
    decode 0b0110101011111110 = .ok (.setValue 0xA 0xFE) ∧
    decode 0b0111101011111110 = .ok (.addValue 0xA 0xFE) ∧
    decode 0b1100101000001111 = .ok (.andRandom 0xA 0x0F) := by decide

theorem test_decode_two_registers :
    decode 0b0101101010110000 = .ok (.skipIfEqualRegister 0xA 0xB) ∧
    decode 0b1001101010110000 = .ok (.skipIfNotEqualRegister 0xA 0xB) ∧
    decode 0b1101000100101111 = .ok (.draw 0x1 0x2 0xF) := by decide

theorem test_decode_group_8 :
    decode 0b1000101010110000 = .ok (.setRegister 0xA 0xB) ∧
    decode 0b1000101010110001 = .ok (.orRegister 0xA 0xB) ∧
    decode 0b1000101010110010 = .ok (.andRegister 0xA 0xB) ∧
    decode 0b1000101010110011 = .ok (.xorRegister 0xA 0xB) ∧
    decode 0b1000101010110100 = .ok (.addRegister 0xA 0xB) ∧
    decode 0b1000101010110101 = .ok (.subtractYFromX 0xA 0xB) ∧
    decode 0b1000101010110110 = .ok (.shiftRight 0xA 0xB) ∧
    decode 0b1000101010110111 = .ok (.subtractXFromY 0xA 0xB) ∧
    decode 0b1000101010111110 = .ok (.shiftLeft 0xA 0xB) := by decide

theorem test_decode_group_E_and_F :
    decode 0b1110101010011110 = .ok (.skipIfKeyPressed 0xA) ∧
    decode 0b1110101010100001 = .ok (.skipIfKeyNotPressed 0xA) ∧
    decode 0b1111101000000111 = .ok (.storeDelayTimer 0xA) ∧
    decode 0b1111101000001010 = .ok (.awaitKeyPress 0xA) ∧
    decode 0b1111101000010101 = .ok (.setDelayTimer 0xA) ∧
    decode 0b1111101000011000 = .ok (.setSoundTimer 0xA) ∧
    decode 0b1111101000011110 = .ok (.addIndex 0xA) ∧
    decode 0b1111101000101001 = .ok (.setIndexFontCharacter 0xA) ∧
    decode 0b1111101000110011 = .ok (.storeBCD 0xA) ∧
    decode 0b1111101001010101 = .ok (.writeMemory 0xA) ∧
    decode 0b1111101001100101 = .ok (.readMemory 0xA) := by decide

/-- Section 3.2: words that fail. -/
theorem test_decode_refuses :
    ([0x8009, 0x8AB8, 0x8ABF, 0x5121, 0x5AB1, 0x9AB1, 0xE09F, 0xE000, 0xEA9F, 0xF000, 0xF0FF,
      0xFA02, 0xFA30, 0xFA75, 0xFA85, 0xFAFB, 0xFFFF].all fun w : Word =>
        decide (decode w = .error (.unrecognizedOpcode w))) = true := by decide

/-- Section 5.2: words written by `encode`. -/
theorem test_encode :
    encode .clearScreen = some 0x00E0 ∧ encode (.jumpAbsolute 0xABC) = some 0x1ABC ∧
    encode (.addRegister 0xA 0xB) = some 0x8AB4 ∧ encode (.shiftRight 0xA 0xB) = some 0x8AB6 ∧
    encode (.skipIfEqualRegister 1 2) = some 0x5120 ∧ encode (.draw 1 2 5) = some 0xD125 ∧
    encode (.readMemory 0xF) = some 0xFF65 ∧
    encode (.callMachineLanguageSubroutine 0) = some 0x0000 := by decide

/-- Rule R274: by the formula the two ill-formed values would be the words of `ClearScreen` and
`Return`; `encode` refuses them. -/
theorem test_encode_refuses :
    encodeWord (.callMachineLanguageSubroutine 0x0E0) = 0x00E0 ∧
    encodeWord (.callMachineLanguageSubroutine 0x0EE) = 0x00EE ∧
    encode (.callMachineLanguageSubroutine 0x0E0) = none ∧
    encode (.callMachineLanguageSubroutine 0x0EE) = none := by decide

/-- Rule R62: the first byte is the high-order one; rule R90: exactly two are taken. -/
theorem test_decodeBytes :
    decodeBytes [0x1A, 0xBC, 0x77] = .ok (.jumpAbsolute 0xABC, [0x77]) ∧
    decodeBytes [0x1A] = .error .noWord ∧ decodeTableWord 16 0x1ABC = some (.jumpAbsolute 0xABC) ∧
    decodeTableWord 16 0x8009 = none := by decide

/-! ### Control flow (section 2.1) -/

theorem test_jumpAbsolute : goesTo 0x1ABC id 0x0ABC = true := by decide

theorem test_callSubroutine :
    goes (step (startAt 0x2ABC id))
      (fun t => t.stack[0] == 0x0202 && t.sp == 1 && t.pc == 0x0ABC) = true := by decide

theorem test_callSubroutine_full : stops (step (startAt 0x2200 (withStack 16))) .stackOverflow := by
  decide

theorem test_return :
    goes (step (startAt 0x00EE (withStack 1)))
      (fun t => t.sp == 0 && t.pc == 0x0456 && t.stack[0] == 0x0456) = true := by decide

theorem test_return_empty : stops (step (startAt 0x00EE id)) .stackUnderflow := by decide

theorem test_jumpRelative_uses_V0 : goesTo 0xB300 (withTwo 0 1 3 0x50) 0x0301 = true := by decide
theorem test_jumpRelative_not_masked : goesTo 0xBFFF (·.setReg 0 0xFF) 0x10FE = true := by decide

theorem test_callMachineLanguageSubroutine :
    goes (step (startAt 0x0123 id)) (fun t => decide (t = (startAt 0x0123 id).setPc 0x202)) := by
  decide

/-! ### Skips (section 2.2) -/

theorem test_skipIfEqualValue :
    goesTo 0x3142 (·.setReg 1 0x42) 0x204 ∧ goesTo 0x3142 (·.setReg 1 0x41) 0x202 := by decide
theorem test_skipIfNotEqualValue :
    goesTo 0x4142 (·.setReg 1 0x42) 0x202 ∧ goesTo 0x4142 (·.setReg 1 0x41) 0x204 := by decide
theorem test_skipIfEqualRegister :
    goesTo 0x5120 (withTwo 1 7 2 7) 0x204 ∧ goesTo 0x5120 (withTwo 1 7 2 8) 0x202 := by decide
theorem test_skipIfNotEqualRegister :
    goesTo 0x9120 (withTwo 1 7 2 7) 0x202 ∧ goesTo 0x9120 (withTwo 1 7 2 8) 0x204 := by decide
theorem test_skipIfKeyPressed :
    goesTo 0xE19E (fun s => (s.setReg 1 5).setKey 5 true) 0x204 ∧
    goesTo 0xE19E (fun s => (s.setReg 1 5).setLatch (some 5)) 0x202 := by decide
theorem test_skipIfKeyPressed_no_key :
    stops (step (startAt 0xE09E (·.setReg 0 16))) (.keyOutOfRange 16) := by decide
theorem test_skipIfKeyNotPressed :
    goesTo 0xE1A1 (fun s => (s.setReg 1 5).setKey 5 true) 0x202 ∧
    goesTo 0xE1A1 (·.setReg 1 5) 0x204 := by decide
theorem test_skipIfKeyNotPressed_no_key :
    stops (step (startAt 0xE0A1 (·.setReg 0 255))) (.keyOutOfRange 255) := by decide

/-! ### Register transfer, logic, arithmetic (sections 2.3 and 3.4) -/

theorem test_setValue : goes (step (startAt 0x6AFF id)) (fun t => t.reg 0xA == 0xFF) = true := by
  decide
theorem test_addValue_no_carry_flag : aluStep 0x7001 0 0xFF 0xF 0x55 0 0x55 := by decide
theorem test_setRegister : aluStep 0x8120 1 1 2 0xAB 0xAB 0 := by decide
theorem test_orRegister : aluStep 0x8121 1 0xF0 2 0x0F 0xFF 0 := by decide
theorem test_orRegister_keeps_VF :
    goes (step (startAt 0x8121 (·.setReg 0xF 0x77))) (fun t => t.reg 0xF == 0x77) = true := by
  decide
theorem test_andRegister : aluStep 0x8122 1 0xFC 2 0x3F 0x3C 0 := by decide
theorem test_xorRegister : aluStep 0x8123 1 0xFF 2 0x0F 0xF0 0 := by decide
theorem test_addRegister : aluStep 0x8014 0 250 1 10 4 1 ∧ aluStep 0x8014 0 255 1 0 255 0 := by
  decide
theorem test_addRegister_VF :
    aluStep 0x8F14 0xF 200 1 100 0x65 0x65 ∧ aluStep 0x81F4 1 200 0xF 100 0xC9 1 := by decide
theorem test_subtractYFromX : aluStep 0x8015 0 5 1 10 0xFB 0 ∧ aluStep 0x8015 0 10 1 10 0 1 := by
  decide
theorem test_subtractYFromX_VF :
    aluStep 0x8F15 0xF 5 1 10 0xF6 0xF6 ∧ aluStep 0x81F5 1 10 0xF 5 9 1 := by decide
theorem test_subtractXFromY : aluStep 0x8017 0 10 1 5 0xFB 0 ∧ aluStep 0x8017 0 5 1 10 5 1 := by
  decide
theorem test_subtractXFromY_VF :
    aluStep 0x8F17 0xF 5 1 10 9 9 ∧ aluStep 0x81F7 1 10 0xF 5 0xF6 0 := by decide
theorem test_shiftRight_ignores_y : aluStep 0x8016 0 0xFF 1 0x12 0x7F 1 := by decide
theorem test_shiftRight_VF : aluStep 0x8F06 0xF 3 0 0 0 0 := by decide
theorem test_shiftLeft : aluStep 0x800E 0 0x7F 1 0 0xFE 0 ∧ aluStep 0x800E 0 0xFF 1 0 0xFE 1 := by
  decide
theorem test_shiftLeft_VF : aluStep 0x8F0E 0xF 0x81 0 0 2 2 := by decide
theorem test_andRandom :
    goes (andRandomWith 0xA7 1 0x0F State.reset) (fun t => t.reg 1 == 0x07) ∧
    goes (andRandomWith 0x80 0xF 0xFF State.reset) (fun t => t.reg 0xF == 0x80) := by decide
theorem test_andRandom_runs : goesTo 0xC10F id 0x202 = true := by decide

/-! ### Index register and memory (sections 2.4 and 3.1) -/

theorem test_setIndex : goes (step (startAt 0xAFFF id)) (fun t => t.I == 0x0FFF) = true := by decide

theorem test_addIndex :
    goes (step (startAt 0xF01E fun s => (s.setIndex 0xFFF).setReg 0 1))
      (fun t => t.I == 0x1000 && t.reg 0xF == 1) ∧
    goes (step (startAt 0xF01E fun s => (s.setIndex 0xFFFF).setReg 0 0xFF))
      (fun t => t.I == 0x00FE && t.reg 0xF == 1) := by decide

theorem test_addIndex_VF :
    goes (step (startAt 0xFF1E fun s => (s.setIndex 0xFFE).setReg 0xF 7))
      (fun t => t.I == 0x0FFF && t.reg 0xF == 1) = true := by decide

theorem test_setIndexFontCharacter :
    goes (step (startAt 0xF129 (·.setReg 1 0xF))) (fun t => t.I == 0x004B) ∧
    stops (step (startAt 0xF029 (·.setReg 0 16))) (.fontDigitOutOfRange 16) := by decide

theorem test_storeBCD :
    goes (step (startAt 0xF033 fun s => (s.setIndex 0xFFD).setReg 0 123))
      (fun t => t.loadBytes 0xFFC 4 == [0, 1, 2, 3]) = true := by decide

theorem test_storeBCD_range :
    stops (step (startAt 0xF033 (·.setIndex 0xFFE))) (.memoryOutOfRange 0x1000) := by decide

theorem test_writeMemory :
    goes (step (startAt 0xF255 fun s =>
        withTwo 2 0x33 3 0x44 (withTwo 0 0x11 1 0x22 (s.setIndex 0x300))))
      (fun t => t.loadBytes 0x2FF 5 == [0, 0x11, 0x22, 0x33, 0] && t.I == 0x300) = true := by decide

theorem test_writeMemory_range :
    stops (step (startAt 0xFF55 (·.setIndex 0xFF1))) (.memoryOutOfRange 0x1000) := by decide

theorem test_readMemory_font :
    goes (step (startAt 0xF465 id))
      (fun t => t.regsUpTo 5 == [0xF0, 0x90, 0x90, 0x90, 0xF0, 0]) = true := by decide

theorem test_readMemory_range :
    stops (step (startAt 0xF065 (·.setIndex 0x1234))) (.memoryOutOfRange 0x1234) := by decide

/-- Rule R64: the glyph `A`, at `5 * 0xA`. -/
theorem test_font_glyph_A :
    font.length = 80 ∧ State.reset.loadBytes 0x032 5 = [0xF0, 0x90, 0xF0, 0x90, 0x90] := by decide

/-! ### Display (section 2.5) -/

theorem test_clearScreen :
    goes (step (startAt 0x00E0 fun s => ((s.setPx 3 4 1).setPx 31 63 1).setReg 0xF 5))
      (fun t => t.screen == [] && t.reg 0xF == 5) ∧ redrawOf (startAt 0x00E0 id) = some true := by
  decide

theorem test_draw_wraps_both_ways :
    goes (step (startAt 0xD012 fun s =>
        withTwo 0 255 1 255 ((s.storeBytes 0x300 [0xFF, 0x81]).setIndex 0x300)))
      (fun t => t.screen.map Prod.fst ==
        [6, 63, 1984, 1985, 1986, 1987, 1988, 1989, 1990, 2047] && t.reg 0xF == 0) = true := by
  decide

theorem test_draw_partial_overlap :
    goes (step (startAt 0xD011 fun s =>
        (((((s.setPx 0 0 1).setPx 0 1 1).setPx 0 2 1).setPx 0 3 1).storeBytes 0x300 [0x3C]).setIndex
          0x300))
      (fun t => t.screen == [(0, 1), (1, 1), (4, 1), (5, 1)] && t.reg 0xF == 1) = true := by decide

theorem test_draw_origin_from_VF :
    goes (step (startAt 0xDF11 fun s =>
        withTwo 0xF 9 1 2 ((s.storeBytes 0x300 [0xC0]).setIndex 0x300)))
      (fun t => t.screen == [(128, 1), (129, 1)] && t.reg 0xF == 0) = true := by decide

theorem test_draw_range :
    stops (step (startAt 0xD002 (·.setIndex 0xFFF))) (.memoryOutOfRange 0x1000) ∧
    goesTo 0xD001 (·.setIndex 0xFFF) 0x202 ∧ goesTo 0xD000 (·.setIndex 0xFFFF) 0x202 := by decide

/-! ### Timers and keypad (sections 2.6 and 6) -/

theorem test_storeDelayTimer :
    goes (step (startAt 0xF107 (·.setDT 0x2A))) (fun t => t.reg 1 == 0x2A && t.DT == 0x2A) := by
  decide
theorem test_setDelayTimer :
    goes (step (startAt 0xF115 (·.setReg 1 0x3C))) (fun t => t.DT == 0x3C && t.ST == 0) := by decide
theorem test_setSoundTimer :
    goes (step (startAt 0xF118 fun s => (s.setReg 1 0).setST 9)) (fun t => t.ST == 0) := by decide
theorem test_awaitKeyPress :
    goes (step (startAt 0xF10A fun s => (s.setLatch (some 0xC)).setKey 0xC true))
      (fun t => t.reg 1 == 0x0C && t.latch == none && t.pc == 0x202 && t.keyHeld 0xC) := by decide
theorem test_awaitKeyPress_holds :
    goes (step (startAt 0xF10A fun s => (s.setReg 1 7).setKey 4 true))
      (fun t => decide (t = startAt 0xF10A fun s => (s.setReg 1 7).setKey 4 true)) := by decide

theorem test_tickTimer :
    tickTimer { State.reset with DT := 255, ST := 2 } =
      ({ State.reset with DT := 254, ST := 1 }, false) ∧
    tickTimer { State.reset with ST := 1 } = (State.reset, true) ∧
    tickTimer State.reset = (State.reset, false) := by decide

theorem test_setKeyState :
    (setKeyState false 7 (setKeyState true 7 (setKeyState true 3 State.reset))).latch = some 7 ∧
    (setKeyState false 7 (setKeyState true 7 (setKeyState true 3 State.reset))).keyHeld 3 ∧
    setKeyState false 5 State.reset = State.reset := by decide

/-! ### Fetch, reset, faults (sections 1, 3.1, 3.5) -/

/-- Section 3.5: an odd `pc` fetches from there. -/
theorem test_odd_pc :
    goes (step ((State.reset.storeBytes 0x200 [0x00, 0x60, 0x07, 0x12]).setPc 0x201))
      (fun t => t.reg 0 == 7 && t.pc == 0x203) = true := by decide

theorem test_fetch_range :
    stops (step (State.reset.setPc 0xFFF)) (.memoryOutOfRange 0x1000) ∧
    stops (step (State.reset.setPc 0x10FE)) (.memoryOutOfRange 0x10FE) := by decide

theorem test_unrecognized_word :
    stops (step (startAt 0x8009 id)) (.unrecognizedOpcode 0x8009) := by decide

/-- S3 of section 1, as resolved by C2 of `spec/90_conflicts.md`. -/
theorem test_first_step_of_empty_rom :
    goes (step State.reset) (fun t => decide (t = State.reset.setPc 0x202)) ∧
    redrawOf State.reset = some false := by decide

theorem test_reset_with_rom :
    goes (resetWithRom [0x60, 0x12]) (fun s =>
      s.loadBytes 0x1FF 4 == [0, 0x60, 0x12, 0] && s.pc == 0x200) = true := by decide

/-- Writing what an unlisted address reads as takes the entry out again. -/
theorem test_memory_canonical :
    ((State.reset.storeBytes 0 [0xAA, 0xBB]).storeBytes 0 [0xF0, 0x90]).memory = [] := by decide

/-! ### Texts (rules R110, R277, R281; section 5.3) -/

theorem test_describe :
    describe (.draw 1 2 5) = "Draw 0x5 rows at column V1, row V2" ∧
    describe (.callSubroutine 0x210) = "Call subroutine at 0x210" ∧
    describe (.setValue 0 0x0A) = "Set V0 to 0x0A" := by decide

theorem test_disassemble :
    disassemble [] = .ok [] ∧ disassemble [0x00, 0xE0, 0x1A] = .ok [.clearScreen] ∧
    disassemble [0x00, 0xE0, 0x80, 0x09, 0x00, 0xEE] = .error (.unrecognizedOpcode 0x8009) := by
  decide

theorem test_render :
    render [.setIndex 0x300, .readMemory 2] =
      "0000 A300 Set I to 0x300\n0002 F265 Read V0 through V2 from memory at I\n" := by decide

theorem test_assemble :
    assemble "AddRegister(x=0xA, y=0xB)" = some (.addRegister 0xA 0xB) ∧
    assemble "Draw(1, 2, 5)" = some (.draw 1 2 5) ∧
    assemble "ShiftRight(3, _)" = some (.shiftRight 3 0) ∧
    assemble "SetValue(16, 0)" = none ∧ assemble "Set Value(1, 0)" = none ∧
    assemble "SetValue(1 2, 0)" = none ∧ assemble "SetValue(y=1, 0)" = none ∧ assemble "ClearScreen" = some .clearScreen ∧
    assemblyText (.setValue 0xA 0xFF) = "SetValue(0xA, 0xFF)" := by decide

/-! ### Witnesses: the hypotheses of each obligation are met -/

theorem witness_DecodeGivesTheExamplesOfTheSource :
    (0x8 : Nibble) ∈ [(0x8 : Nibble), 0x9, 0xA, 0xB, 0xC, 0xD, 0xF] ∧
    (0xF : Nibble) ∈ [(0x8 : Nibble), 0x9, 0xA, 0xB, 0xC, 0xD, 0xF] := by decide

theorem witness_GroupZeroIsMatchedMostSpecificFirst :
    ⟨"JumpAbsolute", 0x1000, 0xF000⟩ ∈ opcodeTable ∧ ⟨"ReadMemory", 0xF065, 0xF0FF⟩ ∈ opcodeTable ∧
    (⟨"JumpAbsolute", 0x1000, 0xF000⟩ : OpcodeRow) ≠ ⟨"ReadMemory", 0xF065, 0xF0FF⟩ ∧
    groupOf 0x1000 ≠ 0 ∧ groupOf 0xF065 ≠ 0 := by decide

theorem witness_EveryWellFormedInstructionRoundTrips :
    (Instr.callMachineLanguageSubroutine 0x0E1).wf ∧ (Instr.draw 1 2 15).wf ∧
    ¬(Instr.callMachineLanguageSubroutine 0x0E0).wf ∧
    ¬(Instr.callMachineLanguageSubroutine 0x0EE).wf := by decide

theorem witness_EveryDecodedWordEncodesBack :
    decode 0x00E1 = .ok (.callMachineLanguageSubroutine 0x0E1) := by decide

theorem witness_DecodeAcceptsExactlyTheOpcodeMap :
    decode 0x8ABE = .ok (.shiftLeft 0xA 0xB) ∧
    decode 0x8ABF = .error (.unrecognizedOpcode 0x8ABF) := by decide

theorem witness_FetchReadsTheBigEndianWord : 0xFFE ≤ 0xFFE ∧ 0xFFF ≤ 0xFFF := by decide

theorem witness_StepRunsTheDecodedInstruction :
    ((startAt 0x6007 (·.setPc 0xFFE)).pc.toNat ≤ 0xFFE) ∧
    decode (joinBytes ((startAt 0x6007 (·.setPc 0xFFE)).byteAt 0xFFE)
      ((startAt 0x6007 (·.setPc 0xFFE)).byteAt 0xFFF)) = .ok (.setValue 0 7) := by decide

theorem witness_StepFaultsInStageOrder :
    0xFFF ≤ (State.reset.setPc 0xFFF).pc.toNat ∧
    (startAt 0x8009 id).fetch16 (startAt 0x8009 id).pc.toNat = .ok 0x8009 ∧
    ∀ i, decode 0x8009 ≠ .ok i :=
  ⟨by decide, by decide, fun i h => by
    rw [show decode 0x8009 = .error (.unrecognizedOpcode 0x8009) by decide] at h; cases h⟩

/-- One step for each clause: a target, an entry, a sum, a skip taken and one not, a hold, and the
plain advance. -/
theorem witness_ProgramCounterFollowsTheDispositions :
    goes (exec (.jumpAbsolute 0xFFF) State.reset) (·.pc == 0xFFF) ∧
    goes (exec (.callSubroutine 0) State.reset) (·.pc == 0) ∧
    goes (exec .returnFromSubroutine (withStack 16 State.reset)) (·.pc == 0x456) ∧
    goes (exec (.jumpRelative 0xFFF) (State.reset.setReg 0 0xFF)) (·.pc == 0x10FE) ∧
    goes (exec (.skipIfEqualValue 0 0) State.reset) (·.pc == 0x204) ∧
    goes (exec (.skipIfNotEqualValue 0 0) State.reset) (·.pc == 0x202) ∧
    goes (exec (.skipIfEqualRegister 0 1) State.reset) (·.pc == 0x204) ∧
    goes (exec (.skipIfNotEqualRegister 0 1) State.reset) (·.pc == 0x202) ∧
    goes (exec (.skipIfKeyPressed 0) (State.reset.setReg 0 15)) (·.pc == 0x202) ∧
    goes (exec (.skipIfKeyNotPressed 0) (State.reset.setReg 0 15)) (·.pc == 0x204) ∧
    goes (exec (.awaitKeyPress 0) State.reset) (·.pc == 0x200) ∧
    goes (exec (.awaitKeyPress 0) (State.reset.setLatch (some 0))) (·.pc == 0x202) ∧
    goes (exec .clearScreen (State.reset.setPc 0xFFFF)) (·.pc == 1) := by decide

theorem witness_JumpAbsoluteGoesToItsAddress :
    (0x200 : Addr).toNat = State.reset.pc.toNat := by decide

theorem witness_CallPushesTheReturnAddress :
    (withStack 15 State.reset).sp.val < 16 ∧ (withStack 16 State.reset).sp.val = 16 := by decide

theorem witness_ReturnPopsTheReturnAddress :
    (withStack 1 State.reset).sp.val = 0 + 1 ∧ (withStack 16 State.reset).sp.val = 15 + 1 ∧
    State.reset.sp.val = 0 := by decide

theorem witness_ReturnUndoesCall : (withStack 15 State.reset).sp.val < 16 := by decide

theorem witness_ValueAndRegisterSkipsTestTheirCondition : (1 : Nibble) ≠ 0 ∧ (15 : Nibble) ≠ 0 := by
  decide

theorem witness_KeySkipsTestTheHeldKey :
    (State.reset.reg 0).toNat = (0 : Nibble).toNat ∧
    ((State.reset.setReg 0 15).reg 0).toNat = (15 : Nibble).toNat ∧
    ((State.reset.setReg 0 16).reg 0).toNat > 15 := by decide

theorem witness_AddRegisterAddsWithCarry :
    250 = ((withTwo 0 250 1 6 State.reset).reg 0).toNat ∧
    6 = ((withTwo 0 250 1 6 State.reset).reg 1).toNat ∧ 1 = (if 250 + 6 > 255 then 1 else 0) ∧
    (0 : Nibble) ≠ 0xF ∧ (1 : Nibble) ≠ 0xF := by decide

theorem witness_SubtractYFromXSubtractsWithNotBorrow :
    5 = ((withTwo 0 5 1 6 State.reset).reg 0).toNat ∧
    6 = ((withTwo 0 5 1 6 State.reset).reg 1).toNat ∧ 0 = (if 5 < 6 then 0 else 1) ∧
    (0 : Nibble) ≠ 0xF ∧ (1 : Nibble) ≠ 0xF := by decide

theorem witness_SubtractXFromYSubtractsWithNotBorrow :
    6 = ((withTwo 0 6 1 6 State.reset).reg 0).toNat ∧
    6 = ((withTwo 0 6 1 6 State.reset).reg 1).toNat ∧ 1 = (if 6 < 6 then 0 else 1) ∧
    (0 : Nibble) ≠ 0xF ∧ (1 : Nibble) ≠ 0xF := by decide

theorem witness_ShiftsMoveOneBitIntoTheFlag :
    0x81 = ((State.reset.setReg 0 0x81).reg 0).toNat ∧ (0 : Nibble) ≠ 0xF ∧
    0x81 = ((State.reset.setReg 0xF 0x81).reg 0xF).toNat := by decide

theorem witness_IndexLoadsSetOnlyTheIndex :
    ((State.reset.setReg 0 15).reg 0).toNat ≤ 15 ∧
    ((State.reset.setReg 0 16).reg 0).toNat > 15 := by decide

theorem witness_AddIndexAddsAndFlagsLeavingMemory :
    0xFFF = (State.reset.setIndex 0xFFF).I.toNat ∧
    0 = ((State.reset.setIndex 0xFFF).reg 0).toNat ∧ 0 = (if 0xFFF + 0 > 0xFFF then 1 else 0) ∧
    (0 : Nibble) ≠ 0xF := by decide

theorem witness_StoreBCDWritesThreeDigits :
    (State.reset.setIndex 0xFFD).I.toNat + 2 ≤ 0xFFF ∧
    (State.reset.setIndex 0xFFE).I.toNat + 2 > 0xFFF := by decide

theorem witness_WriteMemoryStoresTheRegisters :
    (State.reset.setIndex 0xFF0).I.toNat + (0xF : Nibble).toNat ≤ 0xFFF ∧
    (State.reset.setIndex 0xFF1).I.toNat + (0xF : Nibble).toNat > 0xFFF := by decide

theorem witness_ReadMemoryLoadsTheRegisters :
    (State.reset.setIndex 0xFFF).I.toNat + (0 : Nibble).toNat ≤ 0xFFF ∧
    (State.reset.setIndex 0x1000).I.toNat + (0 : Nibble).toNat > 0xFFF := by decide

/-- A `WriteMemory(0)` about to store one byte of the next word, at `0x203`. -/
def beforeWrite : State := State.reset.setIndex 0x203

/-- Memory as it leaves it. -/
def afterWrite (a : Nat) : Byte := if a = 0x203 then 0 else beforeWrite.byteAt a

/-- A `StoreBCD(0)` about to store at the end of memory; the next word is the last two bytes. -/
def beforeBCD : State := ((State.reset.setIndex 0xFFD).setReg 0 123).setPc 0xFFC

/-- Memory as it leaves it. -/
def afterBCD (a : Nat) : Byte :=
  if a = 0xFFD then 1 else if a = 0xFFE then 2 else if a = 0xFFF then 3 else beforeBCD.byteAt a

theorem witness_StoresAreSeenByTheNextFetch_writeMemory :
    beforeWrite.I.toNat + (0 : Nibble).toNat ≤ 0xFFF ∧
    (∀ k : Nibble, k.toNat ≤ (0 : Nibble).toNat →
      afterWrite (beforeWrite.I.toNat + k.toNat) = beforeWrite.reg k) ∧
    (∀ a, a < 0x203 ∨ 0x203 < a → afterWrite a = beforeWrite.byteAt a) ∧
    beforeWrite.pc.toNat ≤ 0xFFC ∧
    decode (joinBytes (afterWrite 0x202) (afterWrite 0x203)) =
      .ok (.callMachineLanguageSubroutine 0) :=
  ⟨by decide, by decide, fun _ h => if_neg (by omega), by decide, by decide⟩

theorem witness_StoresAreSeenByTheNextFetch_storeBCD :
    beforeBCD.I.toNat + 2 ≤ 0xFFF ∧ (beforeBCD.reg 0).toNat = 123 ∧
    (afterBCD 0xFFD).toNat = 123 / 100 ∧ (afterBCD 0xFFE).toNat = 123 / 10 % 10 ∧
    (afterBCD 0xFFF).toNat = 123 % 10 ∧
    (∀ a, a < 0xFFD ∨ 0xFFD + 2 < a → afterBCD a = beforeBCD.byteAt a) ∧
    beforeBCD.pc.toNat ≤ 0xFFC ∧
    decode (joinBytes (afterBCD 0xFFE) (afterBCD 0xFFF)) =
      .ok (.callMachineLanguageSubroutine 0x203) := by
  refine ⟨by decide, by decide, by decide, by decide, by decide, fun a h => ?_, by decide, by decide⟩
  rw [afterBCD, if_neg (by omega), if_neg (by omega), if_neg (by omega)]

theorem witness_DrawXorsTheSpriteAndFlagsCollision :
    (State.reset.setIndex 0xFF1).I.toNat + (0xF : Nibble).toNat ≤ 0x1000 ∧
    (0xF : Nibble) ≠ 0 ∧ (State.reset.setIndex 0xFF2).I.toNat + (0xF : Nibble).toNat > 0x1000 ∧
    ∃ covers : Nat → Nat → Bool, ∀ r c, covers r c =
      spriteCovers State.reset (drawOrigin State.reset 0) (drawOrigin State.reset 1) 15 r c :=
  ⟨by decide, by decide, by decide, _, fun _ _ => rfl⟩

theorem witness_DrawingTwiceRestoresTheScreen :
    canExecute (State.reset.setIndex 0xFF1) (.draw 0 1 0xF) ∧
    Screen.wf (State.reset.setIndex 0xFF1).screen :=
  ⟨.inr (by decide), by decide⟩

theorem witness_AwaitKeyPressConsumesTheLatchOrHolds :
    (State.reset.setLatch (some 0)).latch = some 0 ∧ (startAt 0xF30A id).latch = none ∧
    (startAt 0xF30A id).fetchInstr = .ok (.awaitKeyPress 3) := by decide

theorem witness_SoundTimerBeepsOncePerCountdown :
    (State.reset.setST 1).ST.toNat = 0 + 1 ∧ (State.reset.setST 255).ST.toNat = 254 + 1 := by decide

theorem witness_StepCycleReturnsItsOutputs :
    State.reset.fetchInstr = .ok (.callMachineLanguageSubroutine 0) ∧
    ∃ r, stepCycle State.reset = .next r := ⟨by decide, _, rfl⟩

theorem witness_ResetWithRomGivesOneState :
    (List.replicate 3584 (0xAB : Byte)).length ≤ 3584 ∧
    (List.replicate 3585 (0xAB : Byte)).length > 3584 :=
  ⟨Nat.le_of_eq List.length_replicate, by rw [List.length_replicate]; decide⟩

theorem witness_EachFaultComesFromItsInstructions :
    stops (exec (.callSubroutine 0) (withStack 16 State.reset)) .stackOverflow ∧
    stops (exec .returnFromSubroutine State.reset) .stackUnderflow ∧
    stops (exec (.draw 0 0 1) (State.reset.setIndex 0x1000)) (.memoryOutOfRange 0x1000) ∧
    stops (exec (.storeBCD 0) (State.reset.setIndex 0xFFE)) (.memoryOutOfRange 0x1000) ∧
    stops (exec (.skipIfKeyPressed 0) (State.reset.setReg 0 16)) (.keyOutOfRange 16) ∧
    stops (exec (.setIndexFontCharacter 0) (State.reset.setReg 0 16)) (.fontDigitOutOfRange 16) := by
  decide

theorem witness_AFaultRepeatsWhateverComesBetween :
    step (startAt 0x2200 (withStack 16)) = .fault .stackOverflow := rfl

theorem witness_EachPieceOfStateHasItsWriters :
    exec (.setDelayTimer 0) (State.reset.setReg 0 1) =
      .next (((State.reset.setReg 0 1).setDT 1).setPc 0x202) := rfl

theorem witness_FlagWritersLeaveZeroOrOne :
    writesFlag (.addRegister 0 1) ∧ 0xF ∉ destinations (.addRegister 0 1) ∧
    goes (exec (.addRegister 0 1) State.reset) (fun _ => true) = true :=
  ⟨by simp [writesFlag, Instr.mnemonic], by decide, by decide⟩

theorem witness_EveryResetStateHasTheInvariant : ∃ s, resetWithRom [0x12, 0x00] = .next s :=
  ⟨_, rfl⟩

/-- A state with the invariant, at the last `pc` a fetch can use, whose step answers a next
state. -/
theorem witness_EveryStepKeepsTheInvariant :
    (State.reset.setPc 0xFFE).Inv ∧ goes (step (State.reset.setPc 0xFFE)) (fun _ => true) = true :=
  ⟨⟨by decide, by decide, by decide, by decide⟩, by decide⟩

theorem witness_EveryRunKeepsTheInvariant : ∃ s, resetWithRom [] = .next s := ⟨_, rfl⟩

theorem witness_TerminalStatesStayTerminal : (startAt 0x1200 id).terminal :=
  ⟨0x200, by decide, by decide⟩

theorem witness_DeadStackEntriesAreNeverObserved :
    sameButDeadStack State.reset (withStack 0 State.reset) :=
  ⟨rfl, fun _ _ h => absurd h (by decide +revert)⟩

theorem witness_SoundTimerIsNeverObserved : sameButSoundTimer State.reset (State.reset.setST 9) :=
  rfl

theorem witness_DisassembleReadsWordsUntilTheFirstBad :
    List.Forall₂ (fun i w => encode i = some w) [.clearScreen, .draw 1 2 15] [0x00E0, 0xD12F] ∧
    ∀ i, decode (joinBytes 0x80 0x09) ≠ .ok i :=
  ⟨.cons (by decide) (.cons (by decide) .nil), fun i h => by
    rw [show decode (joinBytes 0x80 0x09) = .error (.unrecognizedOpcode 0x8009) by decide] at h
    cases h⟩

theorem witness_DisassemblyEncodesBackToItsInput :
    disassemble [0x00, 0xE0, 0x1A] = .ok [.clearScreen] := by decide

theorem witness_RenderShowsOneLinePerInstruction :
    [Instr.clearScreen, .draw 1 2 15][1]? = some (.draw 1 2 15) ∧
    encode (.draw 1 2 15) = some 0xD12F := by decide

end Sys2Proof.Tests
end

section
/-! Refusals (`spec/00_scope.md` rule R15). Every meaning ends in `finish` or `raise`, at once or
behind a check, and neither of the two refuses. -/

namespace Sys2Proof.Machine

variable {r : Refusal}

/-! ### Shared operations -/

theorem finish_ne_refused (s : State) (d : Disposition) : finish s d ≠ .refused r := nofun

theorem raise_ne_refused (f : Fault) : raise f ≠ .refused r := nofun

/-- The range check adds a fault to what the rest of the instruction can answer (rule R66). -/
theorem withinMemory_ne_refused {base count : Nat} {body : Result} (h : body ≠ .refused r) :
    withinMemory base count body ≠ .refused r := by
  unfold withinMemory
  split
  · exact raise_ne_refused _
  · exact h

theorem withKeyOperand_ne_refused {s : State} {x : Nibble} {body : Nibble → Result}
    (h : ∀ k, body k ≠ .refused r) : withKeyOperand s x body ≠ .refused r := by
  unfold withKeyOperand
  split
  · exact raise_ne_refused _
  · exact h _

theorem withDigitOperand_ne_refused {s : State} {x : Nibble} {body : Nat → Result}
    (h : ∀ d, body d ≠ .refused r) : withDigitOperand s x body ≠ .refused r := by
  unfold withDigitOperand
  split
  · exact raise_ne_refused _
  · exact h _

/-! ### Instructions with a check of their own -/

theorem execCallSubroutine_ne_refused (address : Addr) (s : State) :
    execCallSubroutine address s ≠ .refused r := by
  unfold execCallSubroutine
  split
  · exact finish_ne_refused _ _
  · exact raise_ne_refused _

theorem execReturnFromSubroutine_ne_refused (s : State) :
    execReturnFromSubroutine s ≠ .refused r := by
  unfold execReturnFromSubroutine
  split
  · exact raise_ne_refused _
  · exact finish_ne_refused _ _

theorem execAwaitKeyPress_ne_refused (x : Nibble) (s : State) :
    execAwaitKeyPress x s ≠ .refused r := by
  unfold execAwaitKeyPress
  split
  · exact finish_ne_refused _ _
  · exact finish_ne_refused _ _

/-! ### Every instruction and every step -/

/-- The variants not named are those whose meaning is one `finish`. -/
theorem exec_ne_refused (i : Instr) (s : State) : exec i s ≠ .refused r := by
  cases i with
  | callSubroutine address => exact execCallSubroutine_ne_refused address s
  | returnFromSubroutine => exact execReturnFromSubroutine_ne_refused s
  | awaitKeyPress x => exact execAwaitKeyPress_ne_refused x s
  | skipIfKeyPressed x => exact withKeyOperand_ne_refused fun _ => finish_ne_refused _ _
  | skipIfKeyNotPressed x => exact withKeyOperand_ne_refused fun _ => finish_ne_refused _ _
  | setIndexFontCharacter x => exact withDigitOperand_ne_refused fun _ => finish_ne_refused _ _
  | draw x y rows => exact withinMemory_ne_refused (finish_ne_refused _ _)
  | storeBCD x => exact withinMemory_ne_refused (finish_ne_refused _ _)
  | writeMemory x => exact withinMemory_ne_refused (finish_ne_refused _ _)
  | readMemory x => exact withinMemory_ne_refused (finish_ne_refused _ _)
  | _ => exact finish_ne_refused _ _

theorem step_ne_refused (s : State) : step s ≠ .refused r := by
  unfold step
  split
  · exact raise_ne_refused _
  · exact exec_ne_refused _ s

/-- Settles O10: no meaning refuses, and a step answers a fault of fetch or decode, or a meaning. -/
theorem noStepIsRefused : Obligations.NoStepIsRefused :=
  ⟨fun i s _ => exec_ne_refused i s, fun s _ => step_ne_refused s⟩

end Sys2Proof.Machine
end

section
/-! What the body of an instruction can do to the state (`spec/40_cycle.md` rule R120, step 4), said
once for all 35 variants; the claims about which instruction writes what, and about the invariant,
are read off it. -/

namespace Sys2Proof.Machine

variable {s t u : State} {i : Instr}

/-! ### Effects -/

/-- `u` is what the body of `i` leaves of `s`, with `pc` still at `i`: one constructor per kind of
state change, with the instructions that make it. -/
inductive Effect (s : State) : Instr → State → Prop where
  | keep {i : Instr} : Effect s i s
  | load {i : Instr} {x : Nibble} (v : Byte) (hx : x ∈ destinations i) : Effect s i (s.setReg x v)
  | flagLoad {i : Instr} {x : Nibble} (f v : Byte) (hf : writesFlag i) (hx : x ∈ destinations i) :
    Effect s i ((s.setFlag f).setReg x v)
  | randomLoad (x : Nibble) (mask v : Byte) : Effect s (.andRandom x mask) (s.countDraw.setReg x v)
  | blockLoad (x : Nibble) (V : Vector Byte 16)
    (hreg : ∀ k, k ∉ destinations (.readMemory x) → { s with V := V }.reg k = s.reg k) :
    Effect s (.readMemory x) { s with V := V }
  | index {i : Instr} (v : Word) (hi : i.mnemonic ∈ ["SetIndex", "SetIndexFontCharacter"]) :
    Effect s i (s.setIndex v)
  | flagIndex (x : Nibble) (f : Byte) (v : Word) : Effect s (.addIndex x) ((s.setFlag f).setIndex v)
  | push (address : Addr) (room : s.sp.val < 16) :
    Effect s (.callSubroutine address) (s.push (s.pc + 2) room)
  | pop : Effect s .returnFromSubroutine s.pop
  | delay (x : Nibble) (v : Byte) : Effect s (.setDelayTimer x) (s.setDT v)
  | sound (x : Nibble) (v : Byte) : Effect s (.setSoundTimer x) (s.setST v)
  | consume (x : Nibble) (v : Byte) : Effect s (.awaitKeyPress x) ((s.setReg x v).setLatch none)
  | store {i : Instr} (base : Nat) (bytes : List Byte)
    (hi : i.mnemonic ∈ ["StoreBCD", "WriteMemory"]) (hin : base + bytes.length ≤ 0x1000) :
    Effect s i (s.storeBytes base bytes)
  | clear : Effect s .clearScreen s.clearPx
  | sprite (x y rows : Nibble) (V : Vector Byte 16) (screen : Cells)
    (hreg : ∀ k, k ≠ 0xF → { s with V := V }.reg k = s.reg k)
    (hwf : Screen.wf s.screen → Screen.wf screen) :
    Effect s (.draw x y rows) { s with V := V, screen := screen }

/-- Where a disposition can lead from `s` beside the instructions after the executing one: to an
address, at most `0xFFF + 0xFF` by rule R146, or to a stack entry. -/
def Disposition.landsIn (s : State) : Disposition → Prop
  | .set target => target.toNat ≤ 0x10FE ∨ ∃ k, ∃ h : k < 16, target = s.stack[k]'h
  | _ => True

/-- `t` is reached from `s` by an effect of `i` and one move of `pc`. -/
inductive Transition (s : State) (i : Instr) : State → Prop where
  | intro {u : State} {d : Disposition} (he : Effect s i u) (hd : d.landsIn s) :
    Transition s i (u.setPc (d.newPc s.pc))

/-- No body moves `pc` (rule R123): that is the end of the step. -/
theorem Effect.pc_eq (he : Effect s i u) : u.pc = s.pc := by cases he <;> rfl

/-! ### Every completed instruction is a transition -/

theorem Effect.finish {d : Disposition} (he : Effect s i u) (h : finish u d = .next t)
    (hd : d.landsIn s := by trivial) : Transition s i t := by
  rw [finish_eq, Host.Outcome.next.injEq, he.pc_eq] at h
  exact h ▸ .intro he hd

theorem skipIf_transition {condition : Bool} (h : skipIf condition s = .next t) :
    Transition s i t :=
  Effect.keep.finish h (by cases condition <;> trivial)

theorem withKeyOperand_next {x : Nibble} {body : Nibble → Result}
    (h : withKeyOperand s x body = .next t) : ∃ k, body k = .next t := by
  unfold withKeyOperand at h
  split at h
  · cases h
  · exact ⟨_, h⟩

theorem withDigitOperand_next {x : Nibble} {body : Nat → Result}
    (h : withDigitOperand s x body = .next t) : ∃ d, body d = .next t := by
  unfold withDigitOperand at h
  split at h
  · cases h
  · exact ⟨_, h⟩

theorem writeBack_transition {x : Nibble} {f : Byte} {value : State → Byte}
    (hx : x ∈ destinations i) (h : writeBack x value (s.setFlag f) = .next t)
    (hf : writesFlag i := by simp [writesFlag, Instr.mnemonic]) : Transition s i t :=
  (Effect.flagLoad f (value (s.setFlag f)) hf hx).finish h

theorem execCallSubroutine_transition {address : Addr}
    (h : execCallSubroutine address s = .next t) : Transition s (.callSubroutine address) t := by
  unfold execCallSubroutine at h
  split at h
  · rename_i room
    refine (Effect.push address room).finish h (.inl ?_)
    simp only [addressOperand, BitVec.toNat_setWidth]
    omega
  · cases h

theorem execReturnFromSubroutine_transition (h : execReturnFromSubroutine s = .next t) :
    Transition s .returnFromSubroutine t := by
  unfold execReturnFromSubroutine at h
  split at h
  · cases h
  · exact Effect.pop.finish h (.inr ⟨_, _, rfl⟩)

theorem execAwaitKeyPress_transition {x : Nibble} (h : execAwaitKeyPress x s = .next t) :
    Transition s (.awaitKeyPress x) t := by
  unfold execAwaitKeyPress at h
  split at h
  · exact (Effect.consume x _).finish h
  · exact Effect.keep.finish h

theorem execDraw_transition {x y rows : Nibble} (h : execDraw x y rows s = .next t) :
    Transition s (.draw x y rows) t := by
  obtain ⟨-, h⟩ := withinMemory_next.1 h
  simp only [drawSprite_eq] at h
  have he : ∀ pixels : List (Nat × Nat), (∀ p ∈ pixels, p.1 < 32 ∧ p.2 < 64) →
      Effect s (.draw x y rows) (toggleAll pixels (s.setFlag 0)) := by
    intro pixels hon
    have hreg := (frame_toggleAll pixels (s.setFlag 0)).regs_same
    have hwf := wf_toggleAll hon (s.setFlag 0)
    obtain ⟨V, screen, hu⟩ := toggleAll_eq pixels (s.setFlag 0)
    rw [hu] at hreg hwf ⊢
    exact .sprite x y rows V screen
      (fun k hk => (hreg k (by simpa using hk)).trans (State.reg_setReg_other s 0 hk)) hwf
  exact (he _ spritePixels_on_screen).finish h

theorem execReadMemory_transition {x : Nibble} (h : execReadMemory x s = .next t) :
    Transition s (.readMemory x) t := by
  obtain ⟨-, h⟩ := withinMemory_next.1 h
  have hreg := (frame_setRegs s 0 (s.loadBytes (baseAddress s) (x.toNat + 1))).regs_same
  rw [State.length_loadBytes, Nat.zero_add] at hreg
  rw [State.setRegs_eq] at h hreg
  exact (Effect.blockLoad x _ hreg).finish h

theorem execStore_transition {bytes : List Byte} (hi : i.mnemonic ∈ ["StoreBCD", "WriteMemory"])
    (h0 : bytes.length ≠ 0) (h : withinMemory (baseAddress s) bytes.length
      (finish (s.storeBytes (baseAddress s) bytes) .next) = .next t) : Transition s i t := by
  obtain ⟨hin, h⟩ := withinMemory_next.1 h
  exact (Effect.store (baseAddress s) bytes hi (hin.resolve_left h0)).finish h

theorem exec_transition (h : exec i s = .next t) : Transition s i t := by
  unfold exec at h
  cases i with
  | clearScreen => exact Effect.clear.finish h
  | returnFromSubroutine => exact execReturnFromSubroutine_transition h
  | callMachineLanguageSubroutine address => exact Effect.keep.finish h
  | jumpAbsolute address =>
    refine Effect.keep.finish h (.inl ?_)
    simp only [addressOperand, BitVec.toNat_setWidth]
    omega
  | callSubroutine address => exact execCallSubroutine_transition h
  | skipIfEqualValue x value => exact skipIf_transition h
  | skipIfNotEqualValue x value => exact skipIf_transition h
  | skipIfEqualRegister x y => exact skipIf_transition h
  | skipIfNotEqualRegister x y => exact skipIf_transition h
  | setValue x value => exact (Effect.load _ (.head _)).finish h
  | addValue x value => exact (Effect.load _ (.head _)).finish h
  | setRegister x y => exact (Effect.load _ (.head _)).finish h
  | orRegister x y => exact (Effect.load _ (.head _)).finish h
  | andRegister x y => exact (Effect.load _ (.head _)).finish h
  | xorRegister x y => exact (Effect.load _ (.head _)).finish h
  | addRegister x y => exact writeBack_transition (.head _) h
  | subtractYFromX x y => exact writeBack_transition (.head _) h
  | shiftRight x y => exact writeBack_transition (.head _) h
  | subtractXFromY x y => exact writeBack_transition (.head _) h
  | shiftLeft x y => exact writeBack_transition (.head _) h
  | setIndex address => exact (Effect.index _ (.head _)).finish h
  | jumpRelative address =>
    refine Effect.keep.finish h (.inl ?_)
    simp only [addressOperand, wideOperand, BitVec.toNat_add, BitVec.toNat_setWidth]
    omega
  | andRandom x value => exact (Effect.randomLoad x value _).finish h
  | draw x y rows => exact execDraw_transition h
  | skipIfKeyPressed x =>
    obtain ⟨k, h⟩ := withKeyOperand_next h
    exact skipIf_transition h
  | skipIfKeyNotPressed x =>
    obtain ⟨k, h⟩ := withKeyOperand_next h
    exact skipIf_transition h
  | storeDelayTimer x => exact (Effect.load _ (.head _)).finish h
  | awaitKeyPress x => exact execAwaitKeyPress_transition h
  | setDelayTimer x => exact (Effect.delay x _).finish h
  | setSoundTimer x => exact (Effect.sound x _).finish h
  | addIndex x => exact (Effect.flagIndex x _ _).finish h
  | setIndexFontCharacter x =>
    obtain ⟨d, h⟩ := withDigitOperand_next h
    exact (Effect.index (BitVec.ofNat 16 (5 * d)) (.tail _ (.head _))).finish h
  | storeBCD x => exact execStore_transition (bytes := decimalDigits (s.reg x)) (.head _) nofun h
  | writeMemory x =>
    exact execStore_transition (bytes := s.regsUpTo x) (.tail _ (.head _)) (by simp)
      (by rwa [State.length_regsUpTo])
  | readMemory x => exact execReadMemory_transition h

end Sys2Proof.Machine
end

section
/-! The invariant (`spec/10_state.md` section 8): it holds at reset, and every operation keeps it. -/

namespace Sys2Proof.Machine

variable {s t u : State} {i : Instr}

/-! ### At reset -/

theorem reset_pc_le : State.reset.pc.toNat ≤ 0x10FE := by decide

theorem reset_stack_le : ∀ k (h : k < 16), (State.reset.stack[k]'h).toNat ≤ 0x1000 := by decide

/-- A ROM that fits is written within memory (rule R340). -/
theorem resetWithRom_inv {rom : List Byte} (h : resetWithRom rom = .next s) : s.Inv := by
  unfold resetWithRom at h
  split at h
  · rename_i hlen
    cases h
    exact {
      memory_wf := Memory.wf_writeAll rom (by omega) Memory.wf_nil
      screen_wf := Screen.wf_nil
      pc_le := reset_pc_le
      stack_le := reset_stack_le }
  · cases h

/-- Settles O49: only the ROM's bytes differ from the reset state. -/
theorem everyResetStateHasTheInvariant : Obligations.EveryResetStateHasTheInvariant :=
  fun _ _ => resetWithRom_inv

/-! ### One step -/

/-- The one thing an effect writes to the screen is pixels of the screen, or none at all. -/
theorem Effect.screen_wf (he : Effect s i u) (h : Screen.wf s.screen) : Screen.wf u.screen := by
  cases he with
  | sprite x y rows V screen hreg hwf => exact hwf h
  | clear => exact Screen.wf_nil
  | _ => exact h

/-- The one thing an effect writes to memory is a block within it. -/
theorem Effect.memory_wf (he : Effect s i u) (h : Memory.wf s.memory) : Memory.wf u.memory := by
  cases he with
  | store base bytes hi hin => exact Memory.wf_writeAll bytes hin h
  | _ => exact h

/-- The one entry an effect writes is the address after a call that was fetched (rules R68, R142). -/
theorem Effect.stack_le (he : Effect s i u) (hpc : s.pc.toNat ≤ 0xFFE)
    (h : ∀ k (hk : k < 16), (s.stack[k]'hk).toNat ≤ 0x1000) (k : Nat) (hk : k < 16) :
    (u.stack[k]'hk).toNat ≤ 0x1000 := by
  cases he with
  | push address room =>
    rw [State.stack_push]
    split
    · bv_omega
    · exact h k hk
  | _ => exact h k hk

/-- From an address that was fetched, `pc` stays within the bound of rule R25. -/
theorem Disposition.newPc_le {d : Disposition} (hd : d.landsIn s) (hpc : s.pc.toNat ≤ 0xFFE)
    (h : ∀ k (hk : k < 16), (s.stack[k]'hk).toNat ≤ 0x1000) :
    (d.newPc s.pc).toNat ≤ 0x10FE := by
  cases d with
  | next => rw [newPc_next]; bv_omega
  | skip => rw [newPc_skip]; bv_omega
  | hold => rw [newPc_hold]; bv_omega
  | set target =>
    rcases hd with hle | ⟨k, hk, rfl⟩
    · exact hle
    · exact (h k hk).trans (by omega)

theorem Transition.inv (ht : Transition s i t) (hpc : s.pc.toNat ≤ 0xFFE) (h : s.Inv) : t.Inv := by
  obtain ⟨he, hd⟩ := ht
  exact {
    memory_wf := he.memory_wf h.memory_wf
    screen_wf := he.screen_wf h.screen_wf
    pc_le := Disposition.newPc_le hd hpc h.stack_le
    stack_le := he.stack_le hpc h.stack_le }

theorem step_inv (h : s.Inv) (hst : step s = .next t) : t.Inv := by
  obtain ⟨i, hfetch, hexec⟩ := (step_next s).1 hst
  obtain ⟨hpc, -⟩ := s.fetchInstr_ok.1 hfetch
  exact (exec_transition hexec).inv hpc h

/-- Settles O50: a completed step is a transition from an address that was fetched. -/
theorem everyStepKeepsTheInvariant : Obligations.EveryStepKeepsTheInvariant :=
  fun _ _ => step_inv

/-! ### Every operation and every run -/

/-- The state after `step cycle` is that of a completed step, or the one before (rule R125). -/
theorem perform_stepCycle (s : State) :
    step s = .next (Operation.stepCycle.perform s).1 ∨ (Operation.stepCycle.perform s).1 = s := by
  simp only [Operation.perform, stepCycle, step]
  cases s.fetchInstr with
  | error f => exact .inr rfl
  | ok i =>
    dsimp only
    cases exec i s with
    | next t => exact .inl rfl
    | fault f => exact .inr rfl
    | refused r => exact .inr rfl

theorem setKeyState_eq (pressed : Bool) (k : Nibble) (s : State) :
    ∃ key latch, setKeyState pressed k s = { s with key := key, latch := latch } := by
  cases pressed <;> exact ⟨_, _, rfl⟩

theorem perform_inv (o : Operation) (h : s.Inv) : (o.perform s).1.Inv := by
  cases o with
  | stepCycle =>
    rcases perform_stepCycle s with hst | heq
    · exact step_inv h hst
    · rwa [heq]
  | tickTimer => exact ⟨h.memory_wf, h.screen_wf, h.pc_le, h.stack_le⟩
  | setKeyState pressed k =>
    obtain ⟨key, latch, heq⟩ := setKeyState_eq pressed k s
    simp only [Operation.perform, heq]
    exact ⟨h.memory_wf, h.screen_wf, h.pc_le, h.stack_le⟩
  | snapshot => exact h

/-- What every operation keeps, every run keeps (rule R70). -/
theorem runOperations_keeps {P : State → Prop} (hop : ∀ o s, P s → P (Operation.perform o s).1)
    (ops : List Operation) (h : P s) : P (runOperations ops s) := by
  induction ops generalizing s with
  | nil => exact h
  | cons o rest ih => exact ih (hop o s h)

/-- Settles O51, by induction on the operations. -/
theorem everyRunKeepsTheInvariant : Obligations.EveryRunKeepsTheInvariant :=
  fun _ _ ops h => runOperations_keeps (fun o _ => perform_inv o) ops (resetWithRom_inv h)

end Sys2Proof.Machine
end

section
/-! Who writes what (`spec/10_state.md` rules R26, R34 and R35): the pieces of state, read off the
effects, and what is left in the flag and in the latch. -/

namespace Sys2Proof.Machine

variable {s t u : State} {i : Instr}

theorem State.setReg_writes {x k : Nibble} {v : Byte} (h : (s.setReg x v).reg k ≠ s.reg k) :
    k = x :=
  by_contra fun hk => h (s.reg_setReg_other v hk)

/-- A register that an effect changes is a destination, or `VF` as a flag. -/
theorem Effect.reg_writers (he : Effect s i u) (k : Nibble) (hk : u.reg k ≠ s.reg k) :
    k ∈ destinations i ∨ k = 0xF ∧ writesFlag i := by
  cases he with
  | load v hx => exact .inl (State.setReg_writes hk ▸ hx)
  | flagLoad f v hf hx =>
    rename_i x
    by_cases hkx : k = x
    · exact .inl (hkx ▸ hx)
    · rw [State.reg_setReg_other _ v hkx] at hk
      exact .inr ⟨State.setReg_writes hk, hf⟩
  | randomLoad x mask v => exact .inl (List.mem_singleton.2 (State.setReg_writes hk))
  | consume x v => exact .inl (List.mem_singleton.2 (State.setReg_writes hk))
  | blockLoad x V hreg => exact .inl (by_contra fun h => hk (hreg k h))
  | flagIndex x f v => exact .inr ⟨State.setReg_writes hk, by simp [writesFlag, Instr.mnemonic]⟩
  | sprite x y rows V screen hreg =>
    exact .inr ⟨by_contra fun h => hk (hreg k h), by simp [writesFlag, Instr.mnemonic]⟩
  | _ => exact absurd rfl hk

/-- Settles O47: each effect names the instructions that make it. -/
theorem eachPieceOfStateHasItsWriters : Obligations.EachPieceOfStateHasItsWriters := by
  intro i s t h
  obtain ⟨he, -⟩ := exec_transition h
  refine ⟨he.reg_writers, ?_⟩
  cases he with
  | index v hi =>
    have hwriters : i.mnemonic ∈ ["SetIndex", "AddIndex", "SetIndexFontCharacter"] :=
      (show ["SetIndex", "SetIndexFontCharacter"] ⊆
        ["SetIndex", "AddIndex", "SetIndexFontCharacter"] by decide) hi
    simpa using fun _ : v ≠ s.I => hwriters
  | store base bytes hi => simpa using fun _ => hi
  | _ => simp [Instr.mnemonic]

/-! ### The flag -/

theorem zero_or_one_of_toNat_le {f : Byte} (h : f.toNat ≤ 1) : f = 0 ∨ f = 1 := by
  bv_omega

theorem carryFlag_bit (a b : Byte) : carryFlag a b = 0 ∨ carryFlag a b = 1 :=
  (ite_eq_or_eq _ _ _).symm

theorem notBorrowFlag_bit (a b : Byte) : notBorrowFlag a b = 0 ∨ notBorrowFlag a b = 1 :=
  ite_eq_or_eq _ _ _

theorem indexFlag_bit (n : Word) (a : Byte) : indexFlag n a = 0 ∨ indexFlag n a = 1 :=
  (ite_eq_or_eq _ _ _).symm

theorem shiftedOutRight_bit (a : Byte) : shiftedOutRight a = 0 ∨ shiftedOutRight a = 1 :=
  zero_or_one_of_toNat_le (by
    rw [shiftedOutRight, BitVec.toNat_and]
    exact Nat.and_le_right)

theorem shiftedOutLeft_bit (a : Byte) : shiftedOutLeft a = 0 ∨ shiftedOutLeft a = 1 :=
  zero_or_one_of_toNat_le (by
    rw [shiftedOutLeft, BitVec.toNat_ushiftRight, Nat.shiftRight_eq_div_pow]
    omega)

/-- The destination is written after the flag, and over it only when it is `VF` (rule R27). -/
theorem writeBack_flag {x : Nibble} {value : State → Byte} {f : Byte} (hx : 0xF ∉ [x])
    (h : writeBack x value (s.setFlag f) = .next t) : t.reg 0xF = f := by
  cases h
  exact (State.reg_setReg_other _ _ (by simpa using hx)).trans (s.reg_setReg_same 0xF f)

theorem execDraw_flag {x y rows : Nibble} (h : execDraw x y rows s = .next t) :
    t.reg 0xF = 0 ∨ t.reg 0xF = 1 := by
  obtain ⟨-, h⟩ := withinMemory_next.1 h
  cases h
  simp only [drawSprite_eq, State.reg_setPc]
  rcases reg_toggleAll (nodup_spritePixels (s.setFlag 0) (rows := rows.toNat) (by omega))
    (fun p hp => (spritePixels_on_screen p hp).2) (s.setFlag 0) 0xF with ⟨hone, -⟩ | ⟨hsame, -⟩
  · exact .inr hone
  · exact .inl (hsame.trans (s.reg_setReg_same 0xF 0))

/-- Settles O48, flag writer by flag writer. -/
theorem flagWritersLeaveZeroOrOne : Obligations.FlagWritersLeaveZeroOrOne := by
  intro i s t h hf hd
  unfold exec at h
  cases i with
  | addRegister x y => exact writeBack_flag hd h ▸ carryFlag_bit _ _
  | subtractYFromX x y => exact writeBack_flag hd h ▸ notBorrowFlag_bit _ _
  | subtractXFromY x y => exact writeBack_flag hd h ▸ notBorrowFlag_bit _ _
  | shiftRight x y => exact writeBack_flag hd h ▸ shiftedOutRight_bit _
  | shiftLeft x y => exact writeBack_flag hd h ▸ shiftedOutLeft_bit _
  | addIndex x =>
    cases h
    exact (s.reg_setReg_same 0xF _).symm ▸ indexFlag_bit s.I (s.reg x)
  | draw x y rows => exact execDraw_flag h
  | _ => simp [writesFlag, Instr.mnemonic] at hf

/-! ### The latch -/

theorem latch_setKeyState (pressed : Bool) (k : Nibble) (s : State) :
    (setKeyState pressed k s).latch = if pressed then some k else s.latch := by
  cases pressed <;> rfl

theorem runOperations_append (ops : List Operation) (o : Operation) (s : State) :
    runOperations (ops ++ [o]) s = (o.perform (runOperations ops s)).1 := by
  simp [runOperations]

/-- Settles O40, by induction on the events, the last one taken off: a press overwrites the latch
and a release leaves it. -/
theorem latchHoldsTheLastPress : Obligations.LatchHoldsTheLastPress := by
  intro events s
  induction events using List.reverseRecOn with
  | nil => rfl
  | append_singleton events e ih =>
    obtain ⟨pressed, k⟩ := e
    rw [List.map_append, List.map_singleton, runOperations_append, List.filter_append]
    refine (latch_setKeyState pressed k _).trans ?_
    cases pressed with
    | true => simp
    | false => simpa using ih

end Sys2Proof.Machine
end

section
/-! What no instruction observes (`spec/10_state.md` rule R38): all but three variants commute with
overwriting the sound timer and the stack entries. -/

namespace Sys2Proof.Machine

variable {s t u : State} {i : Instr}

/-- The state with other contents of the sound timer and of the stack entries. -/
def State.overlay (st : Byte) (stack : Vector Word 16) (s : State) : State :=
  { s with ST := st, stack := stack }

/-- The outcome with its next state changed. -/
def mapNext (f : State → State) : Result → Result
  | .next s => .next (f s)
  | .fault f => .fault f
  | .refused r => .refused r

/-- The three variants that read or write what `State.overlay` overwrites. -/
def overlayUsers : List String := ["CallSubroutine", "Return", "SetSoundTimer"]

variable (st : Byte) (stack : Vector Word 16)

/-! ### Shared operations commute with the overlay -/

theorem finish_overlay (d : Disposition) (s : State) :
    finish (s.overlay st stack) d = mapNext (State.overlay st stack) (finish s d) := rfl

theorem withinMemory_mapNext (f : State → State) (base count : Nat) (body : Result) :
    withinMemory base count (mapNext f body) = mapNext f (withinMemory base count body) := by
  unfold withinMemory
  split <;> rfl

theorem withKeyOperand_mapNext (f : State → State) (s : State) (x : Nibble)
    (body : Nibble → Result) :
    withKeyOperand s x (fun k => mapNext f (body k)) = mapNext f (withKeyOperand s x body) := by
  unfold withKeyOperand
  split <;> rfl

theorem withDigitOperand_mapNext (f : State → State) (s : State) (x : Nibble)
    (body : Nat → Result) :
    withDigitOperand s x (fun d => mapNext f (body d)) = mapNext f (withDigitOperand s x body) := by
  unfold withDigitOperand
  split <;> rfl

theorem setRegs_overlay (k : Nat) (bytes : List Byte) (s : State) :
    (s.overlay st stack).setRegs k bytes = (s.setRegs k bytes).overlay st stack := by
  induction bytes generalizing s k with
  | nil => rfl
  | cons b rest ih => exact ih (k + 1) (s.setReg (BitVec.ofNat 4 k) b)

theorem togglePx_overlay (r c : Nat) (s : State) :
    togglePx r c (s.overlay st stack) = (togglePx r c s).overlay st stack := by
  unfold togglePx
  change (if s.px r c = 1 then (s.overlay st stack).setFlag 1 else s.overlay st stack).setPx r c
    (s.px r c ^^^ 1) = _
  split <;> rfl

theorem toggleAll_overlay (pixels : List (Nat × Nat)) (s : State) :
    toggleAll pixels (s.overlay st stack) = (toggleAll pixels s).overlay st stack := by
  induction pixels generalizing s with
  | nil => rfl
  | cons p rest ih =>
    exact (congrArg (toggleAll rest) (togglePx_overlay st stack p.1 p.2 s)).trans (ih _)

theorem drawSprite_overlay (vx vy rows : Nat) (s : State) :
    drawSprite vx vy rows (s.overlay st stack) = (drawSprite vx vy rows s).overlay st stack := by
  rw [drawSprite_eq, drawSprite_eq]
  exact toggleAll_overlay st stack (spritePixels vx vy rows s) s

theorem execAwaitKeyPress_overlay (x : Nibble) (s : State) :
    execAwaitKeyPress x (s.overlay st stack) =
      mapNext (State.overlay st stack) (execAwaitKeyPress x s) := by
  unfold execAwaitKeyPress
  change (match s.latch with | some k => _ | none => _) = _
  cases s.latch <;> rfl

theorem execDraw_overlay (x y rows : Nibble) (s : State) :
    execDraw x y rows (s.overlay st stack) =
      mapNext (State.overlay st stack) (execDraw x y rows s) := by
  unfold execDraw
  rw [← withinMemory_mapNext, ← finish_overlay, ← drawSprite_overlay]
  rfl

theorem execReadMemory_overlay (x : Nibble) (s : State) :
    execReadMemory x (s.overlay st stack) =
      mapNext (State.overlay st stack) (execReadMemory x s) := by
  unfold execReadMemory
  rw [← withinMemory_mapNext, ← finish_overlay, ← setRegs_overlay]
  rfl

/-- The variants not named end in one `finish` of a state made by field updates. -/
theorem exec_overlay (hi : i.mnemonic ∉ overlayUsers) (s : State) :
    exec i (s.overlay st stack) = mapNext (State.overlay st stack) (exec i s) := by
  cases i with
  | callSubroutine address => exact absurd (.head _) hi
  | returnFromSubroutine => exact absurd (.tail _ (.head _)) hi
  | setSoundTimer x => exact absurd (.tail _ (.tail _ (.head _))) hi
  | skipIfKeyPressed x =>
    exact withKeyOperand_mapNext (State.overlay st stack) s x fun k => skipIf (s.keyHeld k) s
  | skipIfKeyNotPressed x =>
    exact withKeyOperand_mapNext (State.overlay st stack) s x fun k => skipIf (!s.keyHeld k) s
  | setIndexFontCharacter x =>
    exact withDigitOperand_mapNext (State.overlay st stack) s x fun d =>
      finish (s.setIndex (BitVec.ofNat 16 (5 * d))) .next
  | awaitKeyPress x => exact execAwaitKeyPress_overlay st stack x s
  | draw x y rows => exact execDraw_overlay st stack x y rows s
  | storeBCD x =>
    exact withinMemory_mapNext (State.overlay st stack) (baseAddress s) 3
      (finish (s.storeBytes (baseAddress s) (decimalDigits (s.reg x))) .next)
  | writeMemory x =>
    exact withinMemory_mapNext (State.overlay st stack) (baseAddress s) (x.toNat + 1)
      (finish (s.storeBytes (baseAddress s) (s.regsUpTo x)) .next)
  | readMemory x => exact execReadMemory_overlay st stack x s
  | _ => rfl

/-- What the other variants do not read they do not write either. -/
theorem exec_next_overlaid (hi : i.mnemonic ∉ overlayUsers) (h : exec i s = .next u) :
    u.ST = s.ST ∧ u.sp = s.sp ∧ u.stack = s.stack := by
  obtain ⟨-, -, hstack, -, hST, -⟩ := eachPieceOfStateHasItsWriters i s u h
  simp only [overlayUsers, List.mem_cons, List.not_mem_nil, or_false, not_or] at hi hstack
  obtain ⟨hcall, hret, hsound⟩ := hi
  refine ⟨by_contra fun hne => hsound (hST hne), by_contra fun hne => ?_, by_contra fun hne => ?_⟩
  · exact (hstack (.inl hne)).elim hcall hret
  · exact (hstack (.inr hne)).elim hcall hret

/-! ### From instructions to steps -/

variable {R : State → State → Prop}

theorem alike_mapNext {f : State → State} (r : Result) (h : ∀ u, r = .next u → R u (f u)) :
    alike R r (mapNext f r) := by
  cases r with
  | next u => exact h u rfl
  | fault g => rfl
  | refused q => rfl

/-- Two states that fetch alike step alike when every instruction executes alike. -/
theorem alike_step (hpc : t.pc = s.pc) (hm : t.memory = s.memory)
    (h : ∀ i, alike R (exec i s) (exec i t)) : alike R (step s) (step t) := by
  unfold step
  rw [State.fetchInstr_congr hpc hm]
  cases s.fetchInstr with
  | error f => rfl
  | ok i => exact h i

/-! ### The sound timer -/

theorem execCallSubroutine_alike_sound (address : Addr) (s : State) :
    alike sameButSoundTimer (execCallSubroutine address s)
      (execCallSubroutine address (s.setST st)) := by
  by_cases room : s.sp.val < 16
  · rw [execCallSubroutine, execCallSubroutine, dif_pos room, dif_pos (by exact room)]
    rfl
  · rw [execCallSubroutine, execCallSubroutine, dif_neg room, dif_neg (by exact room)]
    rfl

theorem execReturnFromSubroutine_alike_sound (s : State) :
    alike sameButSoundTimer (execReturnFromSubroutine s)
      (execReturnFromSubroutine (s.setST st)) := by
  by_cases hsp : s.sp.val = 0
  · rw [execReturnFromSubroutine, execReturnFromSubroutine, if_pos hsp, if_pos (by exact hsp)]
    rfl
  · rw [execReturnFromSubroutine, execReturnFromSubroutine, if_neg hsp, if_neg (by exact hsp)]
    rfl

theorem exec_alike_sound (i : Instr) (s : State) :
    alike sameButSoundTimer (exec i s) (exec i (s.setST st)) := by
  by_cases hi : i.mnemonic ∈ overlayUsers
  · cases i with
    | callSubroutine address => exact execCallSubroutine_alike_sound st address s
    | returnFromSubroutine => exact execReturnFromSubroutine_alike_sound st s
    | setSoundTimer x => exact rfl
    | _ => simp [overlayUsers, Instr.mnemonic] at hi
  · refine exec_overlay st s.stack hi s ▸ alike_mapNext _ fun u hu => ?_
    obtain ⟨-, -, hstack⟩ := exec_next_overlaid hi hu
    rw [← hstack]
    rfl

/-- Settles O54: the fetch reads `pc` and memory only, and every variant executes alike. -/
theorem soundTimerIsNeverObserved : Obligations.SoundTimerIsNeverObserved := by
  intro s t h
  rw [show t = s.setST t.ST from h]
  exact alike_step rfl rfl fun i => exec_alike_sound t.ST i s

/-! ### Dead stack entries -/

/-- The entries in use, those below `sp`, are the same as in `s` (rule R29). -/
def liveEntriesSame (s : State) : Prop :=
  ∀ k (h : k < 16), k < s.sp.val → stack[k]'h = s.stack[k]'h

/-- A call pushes the same address over a dead entry, which is the one that comes into use. -/
theorem execCallSubroutine_alike_dead (address : Addr) (hlive : liveEntriesSame stack s) :
    alike sameButDeadStack (execCallSubroutine address s)
      (execCallSubroutine address { s with stack := stack }) := by
  by_cases room : s.sp.val < 16
  · rw [execCallSubroutine, execCallSubroutine, dif_pos room, dif_pos (by exact room)]
    refine ⟨rfl, fun k hk hlt => ?_⟩
    change k < s.sp.val + 1 at hlt
    change (State.push { s with stack := stack } (s.pc + 2) room).stack[k]'hk =
      (s.push (s.pc + 2) room).stack[k]'hk
    rw [State.stack_push, State.stack_push]
    split
    · rfl
    · rename_i hne
      exact hlive k hk (Nat.lt_of_le_of_ne (Nat.le_of_lt_succ hlt) hne)
  · rw [execCallSubroutine, execCallSubroutine, dif_neg room, dif_neg (by exact room)]
    rfl

/-- A return goes to an entry in use. -/
theorem execReturnFromSubroutine_alike_dead (hlive : liveEntriesSame stack s) :
    alike sameButDeadStack (execReturnFromSubroutine s)
      (execReturnFromSubroutine { s with stack := stack }) := by
  by_cases hsp : s.sp.val = 0
  · rw [execReturnFromSubroutine, execReturnFromSubroutine, if_pos hsp, if_pos (by exact hsp)]
    rfl
  · rw [execReturnFromSubroutine, execReturnFromSubroutine, if_neg hsp, if_neg (by exact hsp)]
    have htop : State.top { s with stack := stack } = s.top := hlive _ _ (Nat.sub_one_lt hsp)
    rw [htop]
    exact ⟨rfl, fun k hk hlt => hlive k hk (Nat.lt_of_lt_of_le hlt (Nat.sub_le _ _))⟩

theorem exec_alike_dead (i : Instr) (hlive : liveEntriesSame stack s) :
    alike sameButDeadStack (exec i s) (exec i { s with stack := stack }) := by
  by_cases hi : i.mnemonic ∈ overlayUsers
  · cases i with
    | callSubroutine address => exact execCallSubroutine_alike_dead stack address hlive
    | returnFromSubroutine => exact execReturnFromSubroutine_alike_dead stack hlive
    | setSoundTimer x => exact ⟨rfl, hlive⟩
    | _ => simp [overlayUsers, Instr.mnemonic] at hi
  · refine exec_overlay s.ST stack hi s ▸ alike_mapNext _ fun u hu => ?_
    obtain ⟨hST, hsp, hstack⟩ := exec_next_overlaid hi hu
    refine ⟨?_, fun k hk hlt => ?_⟩
    · rw [← hST]
      rfl
    · rw [hsp] at hlt
      exact (hlive k hk hlt).trans (by simp only [hstack])

/-- Settles O53: the fetch reads `pc` and memory only, and every variant executes alike. -/
theorem deadStackEntriesAreNeverObserved : Obligations.DeadStackEntriesAreNeverObserved := by
  intro s t h
  obtain ⟨heq, hlive⟩ := h
  rw [heq]
  exact alike_step rfl rfl fun i => exec_alike_dead t.stack i hlive

end Sys2Proof.Machine
end

section
/-! Memory (`spec/44_index_memory.md`, `spec/70_reset_and_hazards.md`): what a fetch reads, also
after a store, and the state that a reset gives. -/

namespace Sys2Proof.Machine

variable {s t : State} {i : Instr}

/-! ### Fetches -/

/-- Settles O7: the two ranges of `State.fetch16`, with the value of the joined word. -/
theorem fetchReadsTheBigEndianWord : Obligations.FetchReadsTheBigEndianWord :=
  fun s _ => ⟨fun h => ⟨_, s.fetch16_of_le h, toNat_joinBytes _ _⟩, s.fetch16_of_ge⟩

theorem step_of_fetchInstr (h : s.fetchInstr = .ok i) : step s = exec i s := by
  rw [step, h]

/-! ### Stores seen by fetches -/

variable {base : Nat} {bytes : List Byte} {after : Nat → Byte}

/-- What is the block inside its range and the old memory outside it is memory after the store. -/
theorem State.byteAt_storeBytes_eq (hin : ∀ k (h : k < bytes.length), after (base + k) = bytes[k])
    (hout : ∀ a, a < base ∨ base + bytes.length ≤ a → after a = s.byteAt a) (a : Nat) :
    (s.storeBytes base bytes).byteAt a = after a := by
  rw [State.byteAt_storeBytes]
  rcases Nat.lt_or_ge a base with hlt | hge
  · rw [if_neg (Nat.not_le.2 hlt), hout a (.inl hlt)]
  · obtain ⟨k, rfl⟩ := Nat.exists_eq_add_of_le hge
    rw [if_pos hge, Nat.add_sub_cancel_left]
    rcases Nat.lt_or_ge k bytes.length with hk | hk
    · rw [List.getElem?_eq_getElem hk, Option.getD_some, hin k hk]
    · rw [List.getElem?_eq_none hk, Option.getD_none, hout _ (.inr (Nat.add_le_add_left hk base))]

/-- A fetch reads nothing but `pc` and the bytes of memory, so it sees whatever bytes are there. -/
theorem StoreSeen.of_byteAt (hpc : t.pc = s.pc + 2) (hmem : ∀ a, t.byteAt a = after a) :
    StoreSeen after s t where
  goes_on := hpc
  fetched a ha := by rw [t.fetch16_of_le ha, hmem, hmem]
  executed i hle hdecode := by
    have htpc : t.pc.toNat = s.pc.toNat + 2 := by rw [hpc]; bv_omega
    refine step_of_fetchInstr (t.fetchInstr_ok.2 ⟨by omega, ?_⟩)
    rwa [hmem, hmem, htpc]

/-- The block store that both store instructions are (rules R220, R222), with what memory is
after it. -/
theorem storeSeen_of_store (hfit : s.I.toNat + bytes.length ≤ 0x1000)
    (hin : ∀ k (h : k < bytes.length), after (s.I.toNat + k) = bytes[k])
    (hout : ∀ a, a < s.I.toNat ∨ s.I.toNat + bytes.length ≤ a → after a = s.byteAt a) :
    ∃ t, withinMemory (baseAddress s) bytes.length
      (finish (s.storeBytes (baseAddress s) bytes) .next) = .next t ∧ StoreSeen after s t :=
  ⟨_, withinMemory_of_inside _ (.inr hfit),
    .of_byteAt rfl (State.byteAt_storeBytes_eq hin hout)⟩

theorem State.getElem_regsUpTo (s : State) {x : Nibble} {k : Nat}
    (h : k < (s.regsUpTo x).length) : (s.regsUpTo x)[k] = s.reg (BitVec.ofNat 4 k) := by
  simp [State.regsUpTo]

theorem execWriteMemory_seen {x : Nibble} (hfit : s.I.toNat + x.toNat ≤ 0xFFF)
    (hin : ∀ k : Nibble, k.toNat ≤ x.toNat → after (s.I.toNat + k.toNat) = s.reg k)
    (hout : ∀ a, a < s.I.toNat ∨ s.I.toNat + x.toNat < a → after a = s.byteAt a) :
    ∃ t, exec (.writeMemory x) s = .next t ∧ StoreSeen after s t := by
  have hlen : (s.regsUpTo x).length = x.toNat + 1 := s.length_regsUpTo x
  have hseen := storeSeen_of_store (after := after) (bytes := s.regsUpTo x) (by omega)
    (fun k hk => by
      have hnat : (BitVec.ofNat 4 k).toNat = k := by rw [BitVec.toNat_ofNat]; omega
      rw [s.getElem_regsUpTo hk, ← hin _ (by omega), hnat])
    (fun a ha => hout a (by omega))
  rwa [hlen] at hseen

theorem execStoreBCD_seen {x : Nibble} (hfit : s.I.toNat + 2 ≤ 0xFFF)
    (hhundreds : (after s.I.toNat).toNat = (s.reg x).toNat / 100)
    (htens : (after (s.I.toNat + 1)).toNat = (s.reg x).toNat / 10 % 10)
    (hones : (after (s.I.toNat + 2)).toNat = (s.reg x).toNat % 10)
    (hout : ∀ a, a < s.I.toNat ∨ s.I.toNat + 2 < a → after a = s.byteAt a) :
    ∃ t, exec (.storeBCD x) s = .next t ∧ StoreSeen after s t := by
  refine storeSeen_of_store (bytes := decimalDigits (s.reg x)) (Nat.succ_le_succ hfit) ?_ hout
  intro k hk
  match k, hk with
  | 0, _ => exact (BitVec.toNat_eq_nat.1 hhundreds).2
  | 1, _ => exact (BitVec.toNat_eq_nat.1 htens).2
  | 2, _ => exact (BitVec.toNat_eq_nat.1 hones).2

/-- Settles O31: both store instructions are a block store, and every fetch reads memory itself. -/
theorem storesAreSeenByTheNextFetch : Obligations.StoresAreSeenByTheNextFetch :=
  fun _ _ _ => ⟨execWriteMemory_seen, execStoreBCD_seen⟩

/-! ### Reset -/

theorem resetByte_above_font {a : Nat} (h : 0x050 ≤ a) : resetByte a = 0 := by
  have hlen : font.length ≤ a := h
  rw [resetByte, List.getD_eq_default _ _ hlen]

variable (rom : List Byte)

theorem resetWithRom_of_fits (h : rom.length ≤ 3584) :
    resetWithRom rom = .next (State.reset.storeBytes 0x200 rom) := if_pos h

theorem resetWithRom_of_too_long (h : rom.length > 3584) :
    resetWithRom rom = .refused (.romTooLong rom.length) := if_neg (Nat.not_le.2 h)

/-- Below the ROM memory is as at reset with the empty ROM. -/
theorem byteAt_below_rom {a : Nat} (h : a < 0x200) :
    (State.reset.storeBytes 0x200 rom).byteAt a = resetByte a := by
  rw [State.byteAt_storeBytes, if_neg (Nat.not_le.2 h)]
  rfl

theorem byteAt_from_rom {a : Nat} (h : 0x200 ≤ a) :
    (State.reset.storeBytes 0x200 rom).byteAt a = (rom[a - 0x200]?).getD 0 := by
  rw [State.byteAt_storeBytes, if_pos h]
  exact congrArg _ (resetByte_above_font (by omega))

/-- A glyph read back from memory is that of the state reset with the empty ROM. -/
theorem loadBytes_glyph {d : Nat} (h : d < 16) :
    (State.reset.storeBytes 0x200 rom).loadBytes (5 * d) 5 = State.reset.loadBytes (5 * d) 5 := by
  refine List.map_congr_left fun k hk => ?_
  have hk5 : k < 5 := List.mem_range.1 hk
  exact byteAt_below_rom rom (by omega)

theorem reset_reg (k : Nibble) : State.reset.reg k = 0 := Vector.getElem_replicate _

theorem reset_keyHeld (k : Nibble) : State.reset.keyHeld k = false := Vector.getElem_replicate _

theorem reset_stack (k : Nat) (h : k < 16) : State.reset.stack[k]'h = 0 :=
  Vector.getElem_replicate _

/-- Settles O42: storing the ROM changes the bytes from `0x200` on and nothing else of
`State.reset`. -/
theorem resetWithRomGivesOneState : Obligations.ResetWithRomGivesOneState := by
  refine fun rom => ⟨fun hfits => ⟨_, resetWithRom_of_fits rom hfits, rfl, ?font, ?gap,
    fun a ha _ => byteAt_from_rom rom ha, reset_reg, rfl, rfl, reset_stack, rfl, rfl,
    reset_keyHeld, rfl, fun _ _ => rfl⟩, resetWithRom_of_too_long rom⟩
  case font =>
    rw [List.map_congr_left fun d hd => loadBytes_glyph rom (List.mem_range.1 hd)]
    decide
  case gap =>
    intro a hlow hhigh
    rw [byteAt_below_rom rom (by omega), resetByte_above_font hlow]

end Sys2Proof.Machine
end

section
/-! The decoder against the opcode map (`spec/30_encoding.md` rules R100, R101, R103): a word that
decodes is the encoding of its instruction, and whether it decodes is a matter of the bits that the
rows fix. -/

namespace Sys2Proof

variable {w v : Word} {g n : Nibble} {b : Byte} {i : Instr} {row q r : OpcodeRow}

/-! ### Rows and the words they select -/

theorem OpcodeRow.selects_iff : row.selects w ↔ w &&& row.mask = row.value := beq_iff_eq

/-- Two rows that select one word agree on the bits that both fix. -/
theorem OpcodeRow.values_agree_of_selects (hq : q.selects w) (hr : r.selects w) :
    q.value &&& r.mask = r.value &&& q.mask := by
  rw [← selects_iff.1 hq, ← selects_iff.1 hr, BitVec.and_assoc, BitVec.and_assoc,
    BitVec.and_comm q.mask]

theorem opcodeTable_eq_of_values_agree : ∀ q ∈ opcodeTable, ∀ r ∈ opcodeTable,
    q.value &&& r.mask = r.value &&& q.mask → groupOf q.value ≠ 0 → groupOf r.value ≠ 0 →
    q = r := by
  decide

/-! ### Group `0` -/

theorem group_append_inj {a c : Addr} : g ++ a = g ++ c ↔ a = c :=
  ⟨fun h => by simpa using congrArg fieldAddress h, congrArg (g ++ ·)⟩

theorem decode_group0 (a : Addr) : decode (0x0#4 ++ a) =
    .ok (if a = 0x0E0 then .clearScreen else if a = 0x0EE then .returnFromSubroutine
      else .callMachineLanguageSubroutine a) := by
  have hclear : (0x0#4 ++ a : Word) = 0x00E0 ↔ a = 0x0E0 := group_append_inj (c := 0x0E0)
  have hreturn : (0x0#4 ++ a : Word) = 0x00EE ↔ a = 0x0EE := group_append_inj (c := 0x0EE)
  simp only [decode, groupOf_address, BitVec.toNat_ofNat, Nat.zero_mod, hclear, hreturn,
    fieldAddress_address, apply_ite Except.ok]

/-- Settles O3: group `0` by the decoder's own order; outside it two rows that select one word agree
on the bits that both fix, and no two different rows do. -/
theorem groupZeroIsMatchedMostSpecificFirst : Obligations.GroupZeroIsMatchedMostSpecificFirst :=
  ⟨decode_group0, fun q hq r hr hne hgq hgr _ ⟨hsq, hsr⟩ =>
    hne (opcodeTable_eq_of_values_agree q hq r hr (OpcodeRow.values_agree_of_selects hsq hsr)
      hgq hgr)⟩

/-! ### The fields of a masked word -/

theorem groupOf_and (w m : Word) : groupOf (w &&& m) = groupOf w &&& groupOf m :=
  BitVec.extractLsb'_and

theorem fieldN_and (w m : Word) : fieldN (w &&& m) = fieldN w &&& fieldN m :=
  BitVec.extractLsb'_and

theorem fieldValue_and (w m : Word) : fieldValue (w &&& m) = fieldValue w &&& fieldValue m :=
  BitVec.extractLsb'_and

/-! ### A word with some of its parts known -/

theorem group_append_address (hg : (groupOf w).toNat = g.toNat) : g ++ fieldAddress w = w := by
  rw [← BitVec.eq_of_toNat_eq hg, ← word_eq_address]

theorem group_append_value (hg : (groupOf w).toNat = g.toNat) :
    g ++ fieldX w ++ fieldValue w = w := by
  rw [← BitVec.eq_of_toNat_eq hg, ← word_eq_value]

theorem group_append_nibbles (hg : (groupOf w).toNat = g.toNat) :
    g ++ fieldX w ++ fieldY w ++ fieldN w = w := by
  rw [← BitVec.eq_of_toNat_eq hg, ← word_eq_nibbles]

theorem group_append_lowNibble (hg : (groupOf w).toNat = g.toNat)
    (hn : (fieldN w).toNat = n.toNat) : g ++ fieldX w ++ fieldY w ++ n = w := by
  rw [← BitVec.eq_of_toNat_eq hn, group_append_nibbles hg]

theorem group_append_lowByte (hg : (groupOf w).toNat = g.toNat)
    (hb : (fieldValue w).toNat = b.toNat) : g ++ fieldX w ++ b = w := by
  rw [← BitVec.eq_of_toNat_eq hb, group_append_value hg]

/-! ### A word that decodes is the encoding of its instruction -/

theorem encodeWord_of_decodeGroup8 (hg : (groupOf w).toNat = 0x8) (h : decodeGroup8 w = .ok i) :
    encodeWord i = w := by
  unfold decodeGroup8 at h
  split at h <;> cases h <;> exact group_append_lowNibble hg ‹_›

theorem encodeWord_of_decodeGroupE (hg : (groupOf w).toNat = 0xE) (h : decodeGroupE w = .ok i) :
    encodeWord i = w := by
  unfold decodeGroupE at h
  split at h <;> cases h <;> exact group_append_lowByte hg ‹_›

theorem encodeWord_of_decodeGroupF (hg : (groupOf w).toNat = 0xF) (h : decodeGroupF w = .ok i) :
    encodeWord i = w := by
  unfold decodeGroupF at h
  split at h <;> cases h <;> exact group_append_lowByte hg ‹_›

/-- By group, `h_1` to `h_16` for `0x0` to `0xF`; groups of one format (rule R91) go together. -/
theorem encodeWord_of_decode (h : decode w = .ok i) : encodeWord i = w := by
  unfold decode at h
  split at h
  case h_1 =>
    split_ifs at h with hclear hreturn
    · cases h; exact hclear.symm
    · cases h; exact hreturn.symm
    · cases h; exact group_append_address ‹_›
  case h_2 | h_3 | h_11 | h_12 => cases h; exact group_append_address ‹_›
  case h_4 | h_5 | h_7 | h_8 | h_13 => cases h; exact group_append_value ‹_›
  case h_6 | h_10 =>
    split_ifs at h with hn
    cases h
    exact group_append_lowNibble ‹_› (congrArg BitVec.toNat hn)
  case h_9 => exact encodeWord_of_decodeGroup8 ‹_› h
  case h_14 => cases h; exact group_append_nibbles ‹_›
  case h_15 => exact encodeWord_of_decodeGroupE ‹_› h
  case h_16 =>
    have hlt := (groupOf w).isLt
    have hF : (groupOf w).toNat = 0xF := by grind
    exact encodeWord_of_decodeGroupF hF h

/-- Every variant has a row of its name that its word selects, variant by variant. -/
theorem encodedRow_of_instr : ∀ i, Laws.EncodedRow.Statement i
  | .clearScreen => Laws.EncodedRow.clearScreen
  | .returnFromSubroutine => Laws.EncodedRow.returnFromSubroutine
  | .callMachineLanguageSubroutine address => Laws.EncodedRow.callMachineLanguageSubroutine address
  | .jumpAbsolute address => Laws.EncodedRow.jumpAbsolute address
  | .callSubroutine address => Laws.EncodedRow.callSubroutine address
  | .skipIfEqualValue x value => Laws.EncodedRow.skipIfEqualValue x value
  | .skipIfNotEqualValue x value => Laws.EncodedRow.skipIfNotEqualValue x value
  | .skipIfEqualRegister x y => Laws.EncodedRow.skipIfEqualRegister x y
  | .setValue x value => Laws.EncodedRow.setValue x value
  | .addValue x value => Laws.EncodedRow.addValue x value
  | .setRegister x y => Laws.EncodedRow.setRegister x y
  | .orRegister x y => Laws.EncodedRow.orRegister x y
  | .andRegister x y => Laws.EncodedRow.andRegister x y
  | .xorRegister x y => Laws.EncodedRow.xorRegister x y
  | .addRegister x y => Laws.EncodedRow.addRegister x y
  | .subtractYFromX x y => Laws.EncodedRow.subtractYFromX x y
  | .shiftRight x y => Laws.EncodedRow.shiftRight x y
  | .subtractXFromY x y => Laws.EncodedRow.subtractXFromY x y
  | .shiftLeft x y => Laws.EncodedRow.shiftLeft x y
  | .skipIfNotEqualRegister x y => Laws.EncodedRow.skipIfNotEqualRegister x y
  | .setIndex address => Laws.EncodedRow.setIndex address
  | .jumpRelative address => Laws.EncodedRow.jumpRelative address
  | .andRandom x value => Laws.EncodedRow.andRandom x value
  | .draw x y rows => Laws.EncodedRow.draw x y rows
  | .skipIfKeyPressed x => Laws.EncodedRow.skipIfKeyPressed x
  | .skipIfKeyNotPressed x => Laws.EncodedRow.skipIfKeyNotPressed x
  | .storeDelayTimer x => Laws.EncodedRow.storeDelayTimer x
  | .awaitKeyPress x => Laws.EncodedRow.awaitKeyPress x
  | .setDelayTimer x => Laws.EncodedRow.setDelayTimer x
  | .setSoundTimer x => Laws.EncodedRow.setSoundTimer x
  | .addIndex x => Laws.EncodedRow.addIndex x
  | .setIndexFontCharacter x => Laws.EncodedRow.setIndexFontCharacter x
  | .storeBCD x => Laws.EncodedRow.storeBCD x
  | .writeMemory x => Laws.EncodedRow.writeMemory x
  | .readMemory x => Laws.EncodedRow.readMemory x

theorem row_of_decode (h : decode w = .ok i) :
    ∃ row ∈ opcodeTable, row.mnemonic = i.mnemonic ∧ row.selects w := by
  rw [← encodeWord_of_decode h]
  exact encodedRow_of_instr i

/-! ### A word that a row selects decodes -/

theorem isOk_decodeGroup8_congr (h : fieldN w = fieldN v) :
    (decodeGroup8 w).isOk = (decodeGroup8 v).isOk := by
  unfold decodeGroup8
  rw [h]
  split <;> rfl

theorem isOk_decodeGroupE_congr (h : fieldValue w = fieldValue v) :
    (decodeGroupE w).isOk = (decodeGroupE v).isOk := by
  unfold decodeGroupE
  rw [h]
  split <;> rfl

theorem isOk_decodeGroupF_congr (h : fieldValue w = fieldValue v) :
    (decodeGroupF w).isOk = (decodeGroupF v).isOk := by
  unfold decodeGroupF
  rw [h]
  split <;> rfl

/-- Whether a word decodes depends on its group and, in the five groups that have one, on the
sub-opcode; the other groups accept every word. -/
theorem isOk_decode_congr (hg : groupOf w = groupOf v)
    (hn : groupOf v ∈ [0x5#4, 0x8#4, 0x9#4] → fieldN w = fieldN v)
    (hb : groupOf v ∈ [0xE#4, 0xF#4] → fieldValue w = fieldValue v) :
    (decode w).isOk = (decode v).isOk := by
  simp only [List.mem_cons, List.not_mem_nil, or_false, ← BitVec.toNat_inj (x := groupOf v)]
    at hn hb
  unfold decode
  rw [hg]
  split
  case h_1 => split_ifs <;> rfl
  case h_6 hgroup => rw [hn (.inl hgroup)]; split <;> rfl
  case h_9 hgroup => exact isOk_decodeGroup8_congr (hn (.inr (.inl hgroup)))
  case h_10 hgroup => rw [hn (.inr (.inr hgroup))]; split <;> rfl
  case h_15 hgroup => exact isOk_decodeGroupE_congr (hb (.inl hgroup))
  case h_16 =>
    have hlt := (groupOf v).isLt
    have hF : (groupOf v).toNat = 0xF := by grind
    exact isOk_decodeGroupF_congr (hb (.inr hF))
  all_goals rfl

/-- Every row fixes its group and, in the five groups that have one, the whole sub-opcode. -/
theorem opcodeTable_masks : ∀ row ∈ opcodeTable, groupOf row.mask = BitVec.allOnes 4 ∧
    (groupOf row.value ∈ [0x5#4, 0x8#4, 0x9#4] → fieldN row.mask = BitVec.allOnes 4) ∧
    (groupOf row.value ∈ [0xE#4, 0xF#4] → fieldValue row.mask = BitVec.allOnes 8) := by
  decide

theorem isOk_decode_rowValue : ∀ row ∈ opcodeTable, (decode row.value).isOk := by decide

/-- A selected word has the fields that the decoder looks at from the row's own value. -/
theorem isOk_decode_of_selects (hrow : row ∈ opcodeTable) (h : row.selects w) :
    (decode w).isOk := by
  have hw : w &&& row.mask = row.value := OpcodeRow.selects_iff.1 h
  obtain ⟨hg, hn, hb⟩ := opcodeTable_masks row hrow
  rw [← isOk_decode_rowValue row hrow]
  refine isOk_decode_congr ?group (fun hgroup => ?lowNibble) (fun hgroup => ?lowByte)
  case group => rw [← hw, groupOf_and, hg, BitVec.and_allOnes]
  case lowNibble => rw [← hw, fieldN_and, hn hgroup, BitVec.and_allOnes]
  case lowByte => rw [← hw, fieldValue_and, hb hgroup, BitVec.and_allOnes]

theorem decode_ok_of_selects (hrow : row ∈ opcodeTable) (h : row.selects w) :
    ∃ i, decode w = .ok i := by
  have hok := isOk_decode_of_selects hrow h
  cases hd : decode w with
  | ok i => exact ⟨i, rfl⟩
  | error e => rw [hd] at hok; cases hok

/-- Settles O6: what decodes is the word of an instruction, which selects the row of its name, and
what a row selects decodes as the row's own value does. -/
theorem decodeAcceptsExactlyTheOpcodeMap : Obligations.DecodeAcceptsExactlyTheOpcodeMap := by
  refine fun w => ⟨⟨fun ⟨i, h⟩ => ?_, fun ⟨row, hrow, h⟩ => decode_ok_of_selects hrow h⟩,
    fun i => row_of_decode, fun e => decode_error⟩
  obtain ⟨row, hrow, -, hsel⟩ := row_of_decode h
  exact ⟨row, hrow, hsel⟩

/-! ### Words written out -/

/-- Settles O2, word by word. -/
theorem decodeGivesWrittenOutWordsOfEachFamily :
    Obligations.DecodeGivesWrittenOutWordsOfEachFamily := by
  unfold Obligations.DecodeGivesWrittenOutWordsOfEachFamily
  decide

end Sys2Proof
end

section
/-! The step cycle (`spec/40_cycle.md`): what a step does with the word it fetches, where each
instruction leaves `pc`, and what a completed cycle returns. -/

namespace Sys2Proof.Machine

variable {s t u : State} {i : Instr} {d : Disposition} {f : Fault}

/-! ### From the fetched word to the step (rules R120 to R122) -/

/-- Settles O8: the instruction that the step fetches is the one that the two bytes decode to. -/
theorem stepRunsTheDecodedInstruction : Obligations.StepRunsTheDecodedInstruction :=
  fun s _ hpc hdecode => step_of_fetchInstr (s.fetchInstr_ok.2 ⟨hpc, hdecode⟩)

theorem step_of_fetchInstr_error (h : s.fetchInstr = .error f) : step s = .fault f := by
  rw [step, h]
  rfl

theorem State.fetchInstr_of_fetch16_error (h : s.fetch16 s.pc.toNat = .error f) :
    s.fetchInstr = .error f := by
  rw [State.fetchInstr, h]

theorem State.fetchInstr_of_undecodable {w : Word} (hfetch : s.fetch16 s.pc.toNat = .ok w)
    (hdecode : ∀ i, decode w ≠ .ok i) : s.fetchInstr = .error (.unrecognizedOpcode w) := by
  cases hd : decode w with
  | ok i => exact absurd hd (hdecode i)
  | error e => simp only [State.fetchInstr, hfetch, hd]

/-- Settles O9: without a word there is nothing to decode, and without an instruction nothing to
execute. -/
theorem stepFaultsInStageOrder : Obligations.StepFaultsInStageOrder :=
  fun s => ⟨fun hpc => step_of_fetchInstr_error
      (State.fetchInstr_of_fetch16_error (s.fetch16_of_ge hpc)),
    fun _ hfetch hdecode => step_of_fetchInstr_error
      (State.fetchInstr_of_undecodable hfetch hdecode)⟩

/-! ### Where each instruction leaves `pc` (rules R123, R124) -/

/-- A body that has left `pc` alone ends with its disposition. -/
theorem finish_pc (h : finish u d = .next t) (hu : u.pc = s.pc := by rfl) :
    t.pc = d.newPc s.pc := by
  cases h
  exact congrArg d.newPc hu

theorem skipIf_pc {condition : Bool} (h : skipIf condition s = .next t) :
    t.pc = if condition then s.pc + 4 else s.pc + 2 := by
  cases condition <;> exact finish_pc h

/-- What completes with a key operand went on with the key's number. -/
theorem withKeyOperand_next_key {x : Nibble} {body : Nibble → Result}
    (h : withKeyOperand s x body = .next t) : body ((s.reg x).setWidth 4) = .next t := by
  unfold withKeyOperand at h
  split at h
  · cases h
  · exact h

theorem toNat_addressOperand (address : Addr) : (addressOperand address).toNat = address.toNat := by
  simp only [addressOperand, BitVec.toNat_setWidth]
  omega

theorem execCallSubroutine_pc {address : Addr} (h : execCallSubroutine address s = .next t) :
    t.pc = addressOperand address := by
  unfold execCallSubroutine at h
  split at h
  · exact finish_pc (s := s) h
  · cases h

theorem execReturnFromSubroutine_pc (h : execReturnFromSubroutine s = .next t) :
    t.pc = s.top := by
  unfold execReturnFromSubroutine at h
  split at h
  · cases h
  · exact finish_pc (s := s) h

theorem execJumpRelative_pc {address : Addr} (h : execJumpRelative address s = .next t) :
    t.pc.toNat = (address.toNat + (s.reg 0).toNat) % 65536 := by
  rw [finish_pc (s := s) h, newPc_set, BitVec.toNat_add, toNat_addressOperand, wideOperand,
    BitVec.toNat_setWidth_of_le (by decide)]

theorem execAwaitKeyPress_pc {x : Nibble} (h : execAwaitKeyPress x s = .next t) :
    t.pc = if s.latch = none then s.pc else s.pc + 2 := by
  unfold execAwaitKeyPress at h
  split at h
  · rename_i k hlatch
    rw [hlatch]
    exact finish_pc h
  · rename_i hlatch
    rw [hlatch]
    exact finish_pc h

theorem drawSprite_pc (vx vy rows : Nat) (s : State) : (drawSprite vx vy rows s).pc = s.pc := by
  rw [drawSprite_eq]
  exact (frame_toggleAll _ s).parts_same .pc (by decide)

theorem setRegs_pc (k : Nat) (bytes : List Byte) (s : State) : (s.setRegs k bytes).pc = s.pc := by
  rw [State.setRegs_eq]

/-- Settles O11, variant by variant: those not named end in `finish` with disposition `next`. -/
theorem programCounterFollowsTheDispositions :
    Obligations.ProgramCounterFollowsTheDispositions := by
  intro i s t h
  unfold exec at h
  cases i with
  | jumpAbsolute address =>
    exact (congrArg BitVec.toNat (finish_pc (s := s) h)).trans (toNat_addressOperand address)
  | callSubroutine address =>
    exact (congrArg BitVec.toNat (execCallSubroutine_pc h)).trans (toNat_addressOperand address)
  | returnFromSubroutine => exact execReturnFromSubroutine_pc h
  | jumpRelative address => exact execJumpRelative_pc h
  | skipIfEqualValue x value => simpa using skipIf_pc h
  | skipIfNotEqualValue x value => simpa using skipIf_pc h
  | skipIfEqualRegister x y => simpa using skipIf_pc h
  | skipIfNotEqualRegister x y => simpa using skipIf_pc h
  | skipIfKeyPressed x => exact skipIf_pc (withKeyOperand_next_key h)
  | skipIfKeyNotPressed x =>
    refine (skipIf_pc (withKeyOperand_next_key h)).trans ?_
    cases s.keyHeld ((s.reg x).setWidth 4) <;> rfl
  | awaitKeyPress x => exact execAwaitKeyPress_pc h
  | setIndexFontCharacter x =>
    obtain ⟨d, h⟩ := withDigitOperand_next h
    exact finish_pc h
  | draw x y rows =>
    obtain ⟨-, h⟩ := withinMemory_next.1 h
    exact finish_pc h (drawSprite_pc _ _ _ _)
  | storeBCD x =>
    obtain ⟨-, h⟩ := withinMemory_next.1 h
    exact finish_pc h
  | writeMemory x =>
    obtain ⟨-, h⟩ := withinMemory_next.1 h
    exact finish_pc h
  | readMemory x =>
    obtain ⟨-, h⟩ := withinMemory_next.1 h
    exact finish_pc h (setRegs_pc _ _ s)
  | _ => exact finish_pc h

/-! ### The outputs of a completed cycle (rule R126) -/

variable {out : CycleOutput}

/-- A cycle that completes ran the instruction it fetched, and returns that instruction's
outputs. -/
theorem stepCycle_next : stepCycle s = .next (t, out) ↔
    ∃ i, s.fetchInstr = .ok i ∧ exec i s = .next t ∧ out = cycleOutput i t := by
  constructor
  · intro h
    unfold stepCycle at h
    split at h
    · cases h
    · rename_i i hfetch
      split at h
      · rename_i hexec
        cases h
        exact ⟨i, hfetch, hexec, rfl⟩
      · cases h
      · cases h
  · rintro ⟨i, hfetch, hexec, rfl⟩
    simp only [stepCycle, hfetch, hexec]

theorem redraws_iff : redraws i = true ↔ i.mnemonic = "ClearScreen" ∨ i.mnemonic = "Draw" := by
  cases i <;> simp [redraws, Instr.mnemonic]

theorem State.length_snapshot (s : State) : s.snapshot.length = 2048 := by
  rw [State.snapshot, List.length_map, List.length_range]

/-- The snapshot is row-major (rule R37). -/
theorem State.getElem?_snapshot (s : State) {r c : Nat} (hr : r < 32) (hc : c < 64) :
    s.snapshot[r * 64 + c]? = some (s.px r c) := by
  rw [State.snapshot, List.getElem?_map, List.getElem?_range (by omega)]
  rfl

/-- Settles O41: the outputs are those of the fetched instruction, the screen that of the state
after it. -/
theorem stepCycleReturnsItsOutputs : Obligations.StepCycleReturnsItsOutputs := by
  intro s t i out hfetch hcycle
  obtain ⟨j, hfetch', hexec, rfl⟩ := stepCycle_next.1 hcycle
  obtain rfl : i = j := Except.ok.inj (hfetch.symm.trans hfetch')
  dsimp only [cycleOutput]
  exact ⟨(step_next s).2 ⟨i, hfetch, hexec⟩, rfl, redraws_iff, t.length_snapshot,
    fun r c => t.getElem?_snapshot⟩

/-- Settles O43: memory at `0x200` is 0 after a reset with the empty ROM, and the word `0000` is a
no-op (rule R148). -/
theorem firstStepOfAnEmptyRomAdvances : Obligations.FirstStepOfAnEmptyRomAdvances := by
  have hword : State.reset.fetch16 0x200 = .ok 0x0000 := by decide
  have hdecode : decode 0x0000 = .ok (.callMachineLanguageSubroutine 0x000) := by decide
  have hfetch : State.reset.fetchInstr = .ok (.callMachineLanguageSubroutine 0x000) := by decide
  exact ⟨State.reset, State.reset.setPc 0x202, _, resetWithRom_of_fits [] (Nat.zero_le _), hword,
    hdecode, stepCycle_next.2 ⟨_, hfetch, rfl, rfl⟩, rfl, rfl, fun _ _ => rfl, frame_setPc _ _⟩

end Sys2Proof.Machine
end

section
/-! A fault stays (`spec/40_cycle.md` rule R125, `spec/60_exceptions.md` rules R306 and R310): what
ticks and key events write is read by no check, so they turn no fault into a completion or into
another fault. -/

namespace Sys2Proof.Machine

variable {s t : State} {d e : Disposition} {f : Fault}

/-! ### Outcomes of the same kind -/

/-- Both complete, or both give the same fault or refusal. -/
def sameKind : Result → Result → Prop := alike fun _ _ => True

theorem sameKind_refl (r : Result) : sameKind r r := by
  cases r <;> trivial

theorem finish_sameKind : sameKind (finish s d) (finish t e) := True.intro

theorem skipIf_sameKind {b c : Bool} : sameKind (skipIf b s) (skipIf c t) := finish_sameKind

theorem sameKind_fault {r : Result} (h : sameKind (.fault f) r) : r = .fault f := by
  cases r with
  | fault g => exact congrArg Host.Outcome.fault (Eq.symm h)
  | _ => exact h.elim

/-- The range check looks at the range and not at the rest of the instruction (rule R66). -/
theorem withinMemory_sameKind {r r' : Result} (base count : Nat) (h : sameKind r r') :
    sameKind (withinMemory base count r) (withinMemory base count r') := by
  unfold withinMemory
  split
  · exact sameKind_refl _
  · exact h

/-- Whether a checked operand faults is a matter of the register alone. -/
theorem withKeyOperand_sameKind {x : Nibble} {body body' : Nibble → Result}
    (hreg : t.reg x = s.reg x) (h : ∀ k, sameKind (body k) (body' k)) :
    sameKind (withKeyOperand s x body) (withKeyOperand t x body') := by
  unfold withKeyOperand
  rw [hreg]
  split
  · exact sameKind_refl _
  · exact h _

theorem withDigitOperand_sameKind {x : Nibble} {body body' : Nat → Result}
    (hreg : t.reg x = s.reg x) (h : ∀ d, sameKind (body d) (body' d)) :
    sameKind (withDigitOperand s x body) (withDigitOperand t x body') := by
  unfold withDigitOperand
  rw [hreg]
  split
  · exact sameKind_refl _
  · exact h _

theorem execCallSubroutine_sameKind (address : Addr) (hsp : t.sp = s.sp) :
    sameKind (execCallSubroutine address s) (execCallSubroutine address t) := by
  unfold execCallSubroutine
  simp only [hsp]
  split
  · exact finish_sameKind
  · exact sameKind_refl _

theorem execReturnFromSubroutine_sameKind (hsp : t.sp = s.sp) :
    sameKind (execReturnFromSubroutine s) (execReturnFromSubroutine t) := by
  unfold execReturnFromSubroutine
  rw [hsp]
  split
  · exact sameKind_refl _
  · exact finish_sameKind

/-- The key wait completes, with a latched press or without one (rule R256). -/
theorem execAwaitKeyPress_completes (x : Nibble) (s : State) :
    ∃ u, execAwaitKeyPress x s = .next u := by
  unfold execAwaitKeyPress
  split <;> exact ⟨_, rfl⟩

theorem execAwaitKeyPress_sameKind (x : Nibble) :
    sameKind (execAwaitKeyPress x s) (execAwaitKeyPress x t) := by
  obtain ⟨u, hu⟩ := execAwaitKeyPress_completes x s
  obtain ⟨v, hv⟩ := execAwaitKeyPress_completes x t
  rw [hu, hv]
  exact True.intro

/-! ### What ticks and key events write -/

/-- The state with other contents of the pieces that ticks and key events write. -/
def State.afterEvents (DT ST : Byte) (key : Vector Bool 16) (latch : Option Nibble) (s : State) :
    State :=
  { s with DT := DT, ST := ST, key := key, latch := latch }

section

variable (DT ST : Byte) (key : Vector Bool 16) (latch : Option Nibble)

/-- No check of an instruction reads the timers, the keypad or the latch; the variants not named
have no check. -/
theorem exec_afterEvents_sameKind (i : Instr) (s : State) :
    sameKind (exec i s) (exec i (s.afterEvents DT ST key latch)) := by
  cases i with
  | callSubroutine address => exact execCallSubroutine_sameKind address rfl
  | returnFromSubroutine => exact execReturnFromSubroutine_sameKind rfl
  | awaitKeyPress x => exact execAwaitKeyPress_sameKind x
  | skipIfKeyPressed x => exact withKeyOperand_sameKind rfl fun _ => skipIf_sameKind
  | skipIfKeyNotPressed x => exact withKeyOperand_sameKind rfl fun _ => skipIf_sameKind
  | setIndexFontCharacter x => exact withDigitOperand_sameKind rfl fun _ => finish_sameKind
  | draw x y rows => exact withinMemory_sameKind (baseAddress s) rows.toNat finish_sameKind
  | storeBCD x => exact withinMemory_sameKind (baseAddress s) 3 finish_sameKind
  | writeMemory x => exact withinMemory_sameKind (baseAddress s) (x.toNat + 1) finish_sameKind
  | readMemory x => exact withinMemory_sameKind (baseAddress s) (x.toNat + 1) finish_sameKind
  | _ => exact finish_sameKind

theorem step_fault_afterEvents (h : step s = .fault f) :
    step (s.afterEvents DT ST key latch) = .fault f := by
  have hkind : sameKind (step s) (step (s.afterEvents DT ST key latch)) :=
    alike_step rfl rfl fun i => exec_afterEvents_sameKind DT ST key latch i s
  rw [h] at hkind
  exact sameKind_fault hkind

end

/-! ### Operations -/

theorem perform_stepCycle_of_fault (h : step s = .fault f) :
    (Operation.stepCycle.perform s).1 = s :=
  (perform_stepCycle s).resolve_left fun hnext => nomatch h.symm.trans hnext

/-- Whatever the operation, a step that faults after it is the step that faulted before it. -/
theorem perform_keeps_fault (o : Operation) (s : State) (h : step s = .fault f) :
    step (o.perform s).1 = .fault f := by
  cases o with
  | stepCycle => rwa [perform_stepCycle_of_fault h]
  | tickTimer => exact step_fault_afterEvents (s := s) _ _ s.key s.latch h
  | setKeyState pressed k =>
    obtain ⟨key, latch, heq⟩ := setKeyState_eq pressed k s
    simp only [Operation.perform, heq]
    exact step_fault_afterEvents (s := s) s.DT s.ST key latch h
  | snapshot => exact h

/-- Settles O46, with "the step raises `f`" as the invariant of the operations. -/
theorem aFaultRepeatsWhateverComesBetween : Obligations.AFaultRepeatsWhateverComesBetween :=
  fun _ _ h => ⟨perform_stepCycle_of_fault h,
    fun ops => runOperations_keeps perform_keeps_fault ops h⟩

end Sys2Proof.Machine
end

section
/-! Control flow (`spec/41_control_flow.md`): jumps, call, return and the machine-language call.
Each has one equation for what it does, per branch of its check; the claims are read off those. -/

namespace Sys2Proof.Machine

variable {s u : State}

/-! ### What each variant does -/

theorem exec_jumpAbsolute (a : Addr) (s : State) :
    exec (.jumpAbsolute a) s = .next (s.setPc (addressOperand a)) := rfl

theorem exec_callSubroutine_of_room (a : Addr) (room : s.sp.val < 16) :
    exec (.callSubroutine a) s =
      .next ((s.push (s.pc + 2) room).setPc (addressOperand a)) := by
  rw [exec, execCallSubroutine, dif_pos room, finish_eq, newPc_set]

theorem exec_callSubroutine_of_full (a : Addr) (full : ¬s.sp.val < 16) :
    exec (.callSubroutine a) s = .fault .stackOverflow := by
  rw [exec, execCallSubroutine, dif_neg full, raise_eq]

theorem exec_returnFromSubroutine_of_nonempty (h : s.sp.val ≠ 0) :
    exec .returnFromSubroutine s = .next (s.pop.setPc s.top) := by
  rw [exec, execReturnFromSubroutine, if_neg h, finish_eq, newPc_set]

theorem exec_returnFromSubroutine_of_empty (h : s.sp.val = 0) :
    exec .returnFromSubroutine s = .fault .stackUnderflow := by
  rw [exec, execReturnFromSubroutine, if_pos h, raise_eq]

/-- What was pushed last is where the return goes. -/
theorem exec_returnFromSubroutine_of_pushed (v pc : Word) (room : s.sp.val < 16) :
    exec .returnFromSubroutine ((s.push v room).setPc pc) =
      .next ((s.push v room).pop.setPc v) := by
  have htop : ((s.push v room).setPc pc).top = v := s.top_push v room
  rw [exec_returnFromSubroutine_of_nonempty (Nat.succ_ne_zero s.sp.val), htop]
  rfl

theorem exec_jumpRelative (a : Addr) (s : State) :
    exec (.jumpRelative a) s = .next (s.setPc (addressOperand a + wideOperand s 0)) := rfl

theorem exec_callMachineLanguageSubroutine (a : Addr) (s : State) :
    exec (.callMachineLanguageSubroutine a) s = .next (s.setPc (s.pc + 2)) := rfl

/-! ### Targets -/

theorem addressOperand_eq_of_toNat_eq {a : Addr} {pc : Word} (h : a.toNat = pc.toNat) :
    addressOperand a = pc :=
  BitVec.eq_of_toNat_eq ((toNat_addressOperand a).trans h)

/-- Rule R146: an address and a byte add up to at most `0x10FE`, so the 16-bit sum is that of the
natural numbers. -/
theorem toNat_addressOperand_add_wideOperand (a : Addr) (s : State) (x : Nibble) :
    (addressOperand a + wideOperand s x).toNat = a.toNat + (s.reg x).toNat := by
  rw [BitVec.toNat_add, toNat_addressOperand, wideOperand, BitVec.toNat_setWidth_of_le (by decide)]
  omega

/-! ### Stack and frame -/

/-- The entry on top is the one below `sp`. -/
theorem State.top_of_sp {n : Nat} (hn : n < 16) (h : s.sp.val = n + 1) :
    s.top = s.stack[n]'hn := by
  simp only [State.top, h, Nat.add_sub_cancel]

/-- What a call or a return changes: the stack, then `pc`. -/
theorem Frame.setPc_of_stack (h : Frame [] [.stack] s u) (v : Word) :
    Frame [] [.pc, .stack] s (u.setPc v) :=
  (h.mono (by simp) (by simp)).trans ((frame_setPc u v).mono (by simp) (by simp))

/-- A push and then a pop leaves `sp` and the entries in use as they were. -/
theorem sameButDeadStack_pop_push (v w : Word) (room : s.sp.val < 16) :
    sameButDeadStack { s with pc := w } ((s.push v room).pop.setPc w) := by
  refine ⟨rfl, fun k hk hlt => ?_⟩
  have hne : k ≠ s.sp.val := Nat.ne_of_lt hlt
  exact (s.stack_push v room k hk).trans (if_neg hne)

/-! ### The claims -/

/-- Settles O12: the target is the address, and `pc` written back leaves the state itself. -/
theorem jumpAbsoluteGoesToItsAddress : Obligations.JumpAbsoluteGoesToItsAddress := by
  refine fun a s => ⟨⟨_, exec_jumpAbsolute a s, toNat_addressOperand a, frame_setPc _ _⟩, ?_⟩
  intro hself
  rw [exec_jumpAbsolute, addressOperand_eq_of_toNat_eq hself, State.setPc_self]

/-- Settles O13: with room the call is a push and a move of `pc`; without room it raises. -/
theorem callPushesTheReturnAddress : Obligations.CallPushesTheReturnAddress := by
  refine fun a s => ⟨fun room => ?_, fun full => ?_⟩
  · exact ⟨_, exec_callSubroutine_of_room a room, toNat_addressOperand a,
      s.sp_push (s.pc + 2) room, s.stack_push (s.pc + 2) room,
      (frame_push s (s.pc + 2) room).setPc_of_stack _⟩
  · exact exec_callSubroutine_of_full a (by omega)

/-- Settles O14: with an entry in use the return is a pop and a move of `pc` to it; without one it
raises. -/
theorem returnPopsTheReturnAddress : Obligations.ReturnPopsTheReturnAddress := by
  refine fun s => ⟨fun n hn hsp => ?_, exec_returnFromSubroutine_of_empty⟩
  have hpop : s.pop.sp.val = n := by rw [State.sp_pop, hsp, Nat.add_sub_cancel]
  exact ⟨_, exec_returnFromSubroutine_of_nonempty (by omega), State.top_of_sp hn hsp, hpop, rfl,
    (frame_pop s).setPc_of_stack _⟩

/-- Settles O15: the return goes to the entry that the call pushed, which is then out of use. -/
theorem returnUndoesCall : Obligations.ReturnUndoesCall :=
  fun a s room => ⟨_, _, exec_callSubroutine_of_room a room,
    exec_returnFromSubroutine_of_pushed (s.pc + 2) (addressOperand a) room, rfl, rfl,
    sameButDeadStack_pop_push (s.pc + 2) (s.pc + 2) room⟩

/-- Settles O16: the 16-bit sum of an address and a byte does not wrap. -/
theorem jumpRelativeAddsRegisterZero : Obligations.JumpRelativeAddsRegisterZero :=
  fun a s => ⟨_, exec_jumpRelative a s, toNat_addressOperand_add_wideOperand a s 0,
    frame_setPc _ _⟩

/-- Settles O17: the address is not read, and only `pc` is written. -/
theorem machineLanguageCallDoesNothing : Obligations.MachineLanguageCallDoesNothing :=
  fun a s => ⟨_, exec_callMachineLanguageSubroutine a s, rfl, frame_setPc _ _⟩

end Sys2Proof.Machine
end

section
/-! What the groups `3`, `4`, `5` and `9` decode to (`spec/30_encoding.md` rule R100): the four value
and register skips, and in the groups `5` and `9` nothing for a low nibble other than 0 (decision
D3). -/

namespace Sys2Proof

theorem decode_group3 (x : Nibble) (v : Byte) :
    decode (0x3#4 ++ x ++ v) = .ok (.skipIfEqualValue x v) := by
  simp only [decode, groupOf_value, fieldX_value, fieldValue_value, BitVec.toNat_ofNat,
    Nat.reducePow, Nat.reduceMod]

theorem decode_group4 (x : Nibble) (v : Byte) :
    decode (0x4#4 ++ x ++ v) = .ok (.skipIfNotEqualValue x v) := by
  simp only [decode, groupOf_value, fieldX_value, fieldValue_value, BitVec.toNat_ofNat,
    Nat.reducePow, Nat.reduceMod]

theorem decode_group5 (x y n : Nibble) :
    decode (0x5#4 ++ x ++ y ++ n) = if n = 0 then .ok (.skipIfEqualRegister x y)
      else .error (.unrecognizedOpcode (0x5#4 ++ x ++ y ++ n)) := by
  simp only [decode, groupOf_nibbles, fieldX_nibbles, fieldY_nibbles, fieldN_nibbles,
    BitVec.toNat_ofNat, Nat.reducePow, Nat.reduceMod]

theorem decode_group9 (x y n : Nibble) :
    decode (0x9#4 ++ x ++ y ++ n) = if n = 0 then .ok (.skipIfNotEqualRegister x y)
      else .error (.unrecognizedOpcode (0x9#4 ++ x ++ y ++ n)) := by
  simp only [decode, groupOf_nibbles, fieldX_nibbles, fieldY_nibbles, fieldN_nibbles,
    BitVec.toNat_ofNat, Nat.reducePow, Nat.reduceMod]

end Sys2Proof
end

section
/-! Skips (`spec/42_skips.md`). Whatever its condition, a skip moves `pc` by two words or by one and
changes nothing else; the claims are that rule with each variant's condition. -/

namespace Sys2Proof.Machine

variable {s : State} {x k : Nibble} {body : Nibble → Result}

/-! ### What each variant does -/

theorem exec_skipIfEqualValue (x : Nibble) (v : Byte) (s : State) :
    exec (.skipIfEqualValue x v) s = skipIf (s.reg x == v) s := rfl

theorem exec_skipIfNotEqualValue (x : Nibble) (v : Byte) (s : State) :
    exec (.skipIfNotEqualValue x v) s = skipIf (s.reg x != v) s := rfl

theorem exec_skipIfEqualRegister (x y : Nibble) (s : State) :
    exec (.skipIfEqualRegister x y) s = skipIf (s.reg x == s.reg y) s := rfl

theorem exec_skipIfNotEqualRegister (x y : Nibble) (s : State) :
    exec (.skipIfNotEqualRegister x y) s = skipIf (s.reg x != s.reg y) s := rfl

theorem exec_skipIfKeyPressed (x : Nibble) (s : State) :
    exec (.skipIfKeyPressed x) s = withKeyOperand s x fun k => skipIf (s.keyHeld k) s := rfl

theorem exec_skipIfKeyNotPressed (x : Nibble) (s : State) :
    exec (.skipIfKeyNotPressed x) s = withKeyOperand s x fun k => skipIf (!s.keyHeld k) s := rfl

/-- A register that holds a key's number makes that key the operand. -/
theorem withKeyOperand_of_key (h : (s.reg x).toNat = k.toNat) :
    withKeyOperand s x body = body k := by
  have hkey : (s.reg x).setWidth 4 = k := by
    apply BitVec.eq_of_toNat_eq
    rw [BitVec.toNat_setWidth, h, Nat.mod_eq_of_lt k.isLt]
  rw [withKeyOperand, if_neg (by omega), hkey]

theorem withKeyOperand_of_gt (h : (s.reg x).toNat > 15) :
    withKeyOperand s x body = .fault (.keyOutOfRange (s.reg x)) := by
  rw [withKeyOperand, if_pos h, raise_eq]

/-- Rule R159: a skip completes, writes `pc` alone, and passes over the next word exactly when the
condition that its test decides holds. -/
theorem skipIf_of_iff {test : Bool} {condition : Prop} [Decidable condition]
    (h : test = true ↔ condition) :
    ∃ t, skipIf test s = .next t ∧ Frame [] [.pc] s t ∧
      t.pc = if condition then s.pc + 4 else s.pc + 2 :=
  ⟨_, rfl, frame_setPc s _, (skipIf_pc (s := s) rfl).trans (if_congr h rfl rfl)⟩

/-! ### The claims -/

/-- Settles O18: each word by its group, each variant by the condition that its test decides; with
a low nibble other than 0 the groups `5` and `9` answer an error. -/
theorem valueAndRegisterSkipsTestTheirCondition :
    Obligations.ValueAndRegisterSkipsTestTheirCondition := by
  intro x y v s
  rw [exec_skipIfEqualValue, exec_skipIfNotEqualValue, exec_skipIfEqualRegister,
    exec_skipIfNotEqualRegister]
  exact ⟨decode_group3 x v, skipIf_of_iff beq_iff_eq, decode_group4 x v, skipIf_of_iff bne_iff_ne,
    decode_group5 x y 0, skipIf_of_iff beq_iff_eq, decode_group9 x y 0, skipIf_of_iff bne_iff_ne,
    fun n hn => ⟨fun _ => ((decode_group5 x y n).trans (if_neg hn)).trans_ne nofun,
      fun _ => ((decode_group9 x y n).trans (if_neg hn)).trans_ne nofun⟩⟩

/-- Settles O19: up to 15 the operand is the key numbered `V[x]`; above 15 there is none. -/
theorem keySkipsTestTheHeldKey : Obligations.KeySkipsTestTheHeldKey := by
  intro x s
  rw [exec_skipIfKeyPressed, exec_skipIfKeyNotPressed]
  refine ⟨fun k hk => ?_, fun hgt => ⟨withKeyOperand_of_gt hgt, withKeyOperand_of_gt hgt⟩⟩
  rw [withKeyOperand_of_key hk, withKeyOperand_of_key hk]
  exact ⟨skipIf_of_iff Iff.rfl, skipIf_of_iff (Bool.not_eq_true' _).to_iff⟩

end Sys2Proof.Machine
end

section
/-! Register load, logic, arithmetic, shifts and the random byte (`spec/43_alu.md`). Every variant
ends with a load of its destination; the flag writers have written `VF` before it, so that each
operand that is `VF` is the flag (rule R27, decision D8). -/

namespace Sys2Proof.Machine

variable {s u : State} {regs : List Nibble} {parts : List Part}

/-! ### The load that ends each variant -/

/-- What a load of register `x` leaves of `s` at the end of an instruction. -/
def State.afterLoad (s : State) (x : Nibble) (v : Byte) : State :=
  (s.setReg x v).setPc (s.pc + 2)

@[simp] theorem State.reg_afterLoad_same (s : State) (x : Nibble) (v : Byte) :
    (s.afterLoad x v).reg x = v :=
  s.reg_setReg_same x v

theorem State.reg_afterLoad_other (s : State) {x j : Nibble} (v : Byte) (h : j ≠ x) :
    (s.afterLoad x v).reg j = s.reg j :=
  s.reg_setReg_other v h

/-- A load adds its register and `pc` to what has changed before it. -/
theorem Frame.afterLoad (h : Frame regs parts s u) (x : Nibble) (v : Byte) :
    Frame (x :: regs) (.pc :: parts) s (u.afterLoad x v) :=
  ((h.mono (by simp +contextual) (by simp +contextual)).trans
    ((frame_setReg u x v).mono (by simp) (by simp))).trans
    ((frame_setPc (u.setReg x v) (u.pc + 2)).mono (by simp) (by simp))

theorem frame_afterLoad (s : State) (x : Nibble) (v : Byte) :
    Frame [x] [.pc] s (s.afterLoad x v) :=
  (Frame.refl s).afterLoad x v

/-! ### What each variant does -/

theorem exec_setValue (x : Nibble) (v : Byte) (s : State) :
    exec (.setValue x v) s = .next (s.afterLoad x v) := rfl

theorem exec_addValue (x : Nibble) (v : Byte) (s : State) :
    exec (.addValue x v) s = .next (s.afterLoad x (s.reg x + v)) := rfl

theorem exec_setRegister (x y : Nibble) (s : State) :
    exec (.setRegister x y) s = .next (s.afterLoad x (s.reg y)) := rfl

theorem exec_orRegister (x y : Nibble) (s : State) :
    exec (.orRegister x y) s = .next (s.afterLoad x (s.reg x ||| s.reg y)) := rfl

theorem exec_andRegister (x y : Nibble) (s : State) :
    exec (.andRegister x y) s = .next (s.afterLoad x (s.reg x &&& s.reg y)) := rfl

theorem exec_xorRegister (x y : Nibble) (s : State) :
    exec (.xorRegister x y) s = .next (s.afterLoad x (s.reg x ^^^ s.reg y)) := rfl

theorem exec_addRegister (x y : Nibble) (s : State) :
    exec (.addRegister x y) s = writeBack x (fun t => t.reg x + t.reg y)
      (s.setFlag (carryFlag (s.reg x) (s.reg y))) := rfl

theorem exec_subtractYFromX (x y : Nibble) (s : State) :
    exec (.subtractYFromX x y) s = writeBack x (fun t => t.reg x - t.reg y)
      (s.setFlag (notBorrowFlag (s.reg x) (s.reg y))) := rfl

theorem exec_subtractXFromY (x y : Nibble) (s : State) :
    exec (.subtractXFromY x y) s = writeBack x (fun t => t.reg y - t.reg x)
      (s.setFlag (notBorrowFlag (s.reg y) (s.reg x))) := rfl

theorem exec_shiftRight (x y : Nibble) (s : State) :
    exec (.shiftRight x y) s = writeBack x (fun t => t.reg x >>> 1)
      (s.setFlag (shiftedOutRight (s.reg x))) := rfl

theorem exec_shiftLeft (x y : Nibble) (s : State) :
    exec (.shiftLeft x y) s = writeBack x (fun t => t.reg x <<< 1)
      (s.setFlag (shiftedOutLeft (s.reg x))) := rfl

theorem andRandomWith_eq (rnd : Byte) (x : Nibble) (v : Byte) (s : State) :
    andRandomWith rnd x v s = .next (s.countDraw.afterLoad x (rnd &&& v)) := rfl

theorem exec_andRandom (x : Nibble) (v : Byte) (s : State) :
    exec (.andRandom x v) s = andRandomWith (Config.randomByte s.draws) x v s := rfl

/-! ### The flag write and the write of the destination -/

theorem State.reg_setFlag_other (s : State) {j : Nibble} (f : Byte) (h : j ≠ 0xF) :
    (s.setFlag f).reg j = s.reg j :=
  s.reg_setReg_other f h

@[simp] theorem State.reg_setFlag_same (s : State) (f : Byte) : (s.setFlag f).reg 0xF = f :=
  s.reg_setReg_same 0xF f

/-- Rule R27: the destination is computed from the registers with the flag in them, and `VF` keeps
the flag unless it is the destination. -/
theorem writeBack_completes (x : Nibble) (value : State → Byte) (f : Byte) (s : State) :
    ∃ t, writeBack x value (s.setFlag f) = .next t ∧ t.pc = s.pc + 2 ∧
      Frame [x, 0xF] [.pc] s t ∧ t.reg x = value (s.setFlag f) ∧ (x ≠ 0xF → t.reg 0xF = f) := by
  refine ⟨(s.setFlag f).afterLoad x (value (s.setFlag f)), rfl, rfl,
    (frame_setReg s 0xF f).afterLoad x _, State.reg_afterLoad_same _ _ _, fun hx => ?_⟩
  rw [State.reg_afterLoad_other _ _ hx.symm, State.reg_setFlag_same]

section

variable {f : Byte} {c w : Nat}

/-- A flag writer with the one operand `V[x]`, in both aliasing cases; `w` is what it makes of the
flag. -/
theorem writeBack_unary {op : Byte → Byte} (value : Nat → Nat)
    (hop : ∀ a, (op a).toNat = value a.toNat) (hf : f.toNat = c) (hw : value c = w)
    (x : Nibble) (s : State) :
    ∃ t, writeBack x (fun t => op (t.reg x)) (s.setFlag f) = .next t ∧ t.pc = s.pc + 2 ∧
      Frame [x, 0xF] [.pc] s t ∧
      (x ≠ 0xF → (t.reg x).toNat = value (s.reg x).toNat ∧ (t.reg 0xF).toNat = c) ∧
      (x = 0xF → (t.reg 0xF).toNat = w) := by
  obtain ⟨t, hnext, hpc, hframe, hdest, hflag⟩ :=
    writeBack_completes x (fun t => op (t.reg x)) f s
  refine ⟨t, hnext, hpc, hframe, fun hx => ⟨?_, ?_⟩, ?_⟩
  · rw [hdest, hop, s.reg_setFlag_other f hx]
  · rw [hflag hx, hf]
  · rintro rfl
    rw [hdest, hop, State.reg_setFlag_same, hf, hw]

/-- A flag writer with the operands `V[x]` and `V[y]`, in all four aliasing cases; `w` is what it
makes of the flag twice. -/
theorem writeBack_binary {op : Byte → Byte → Byte} (value : Nat → Nat → Nat)
    (hop : ∀ a b, (op a b).toNat = value a.toNat b.toNat) (hf : f.toNat = c) (hw : value c c = w)
    (x y : Nibble) (s : State) :
    ∃ t, writeBack x (fun t => op (t.reg x) (t.reg y)) (s.setFlag f) = .next t ∧
      t.pc = s.pc + 2 ∧ Frame [x, 0xF] [.pc] s t ∧
      (x ≠ 0xF → y ≠ 0xF →
        (t.reg x).toNat = value (s.reg x).toNat (s.reg y).toNat ∧ (t.reg 0xF).toNat = c) ∧
      (x = 0xF → y ≠ 0xF → (t.reg 0xF).toNat = value c (s.reg y).toNat) ∧
      (x ≠ 0xF → y = 0xF →
        (t.reg x).toNat = value (s.reg x).toNat c ∧ (t.reg 0xF).toNat = c) ∧
      (x = 0xF → y = 0xF → (t.reg 0xF).toNat = w) := by
  obtain ⟨t, hnext, hpc, hframe, hdest, hflag⟩ :=
    writeBack_completes x (fun t => op (t.reg x) (t.reg y)) f s
  refine ⟨t, hnext, hpc, hframe, fun hx hy => ⟨?_, ?_⟩, ?_, ?_, ?_⟩
  · rw [hdest, hop, s.reg_setFlag_other f hx, s.reg_setFlag_other f hy]
  · rw [hflag hx, hf]
  · rintro rfl hy
    rw [hdest, hop, State.reg_setFlag_same, hf, s.reg_setFlag_other f hy]
  · rintro hx rfl
    rw [hdest, hflag hx, hop, State.reg_setFlag_same, hf, s.reg_setFlag_other f hx]
    exact ⟨rfl, rfl⟩
  · rintro rfl rfl
    rw [hdest, hop, State.reg_setFlag_same, hf, hw]

end

/-! ### Flags and results as natural numbers (rule R202) -/

theorem toNat_carryFlag (a b : Byte) :
    (carryFlag a b).toNat = if a.toNat + b.toNat > 255 then 1 else 0 :=
  apply_ite BitVec.toNat _ _ _

theorem toNat_notBorrowFlag (a b : Byte) :
    (notBorrowFlag a b).toNat = if a.toNat < b.toNat then 0 else 1 :=
  apply_ite BitVec.toNat _ _ _

theorem toNat_shiftedOutRight (a : Byte) : (shiftedOutRight a).toNat = a.toNat % 2 :=
  (BitVec.toNat_and a 1).trans (Nat.and_one_is_mod a.toNat)

/-- Shifted down by seven places, the mask of bit 7 is that of bit 0. -/
theorem toNat_shiftedOutLeft (a : Byte) : (shiftedOutLeft a).toNat = a.toNat / 128 := by
  have hmask : ((0x80 : Byte) >>> 7).toNat = 1 := by decide
  rw [shiftedOutLeft, BitVec.ushiftRight_and_distrib, BitVec.toNat_and, hmask,
    Nat.and_one_is_mod, BitVec.toNat_ushiftRight, Nat.shiftRight_eq_div_pow]
  omega

theorem toNat_sub_bytes (a b : Byte) : (a - b).toNat = (a.toNat + 256 - b.toNat) % 256 := by
  rw [BitVec.toNat_sub]
  omega

theorem toNat_shiftRight_one (a : Byte) : (a >>> 1).toNat = a.toNat / 2 := by
  rw [BitVec.toNat_ushiftRight, Nat.shiftRight_eq_div_pow, Nat.pow_one]

theorem toNat_shiftLeft_one (a : Byte) : (a <<< 1).toNat = 2 * a.toNat % 256 := by
  rw [BitVec.toNat_shiftLeft, Nat.shiftLeft_eq]
  omega

/-! ### The claims -/

/-- Settles O20: each of the six is one load, of the value its rule names. -/
theorem loadsAndLogicWriteOnlyTheirDestination :
    Obligations.LoadsAndLogicWriteOnlyTheirDestination := by
  refine fun x y v s =>
    ⟨⟨_, exec_setValue x v s, s.reg_afterLoad_same x _, rfl, frame_afterLoad s x _⟩,
    ⟨_, exec_addValue x v s, ?_, rfl, frame_afterLoad s x _⟩,
    ⟨_, exec_setRegister x y s, s.reg_afterLoad_same x _, rfl, frame_afterLoad s x _⟩,
    ⟨_, exec_orRegister x y s, fun n => ?_, rfl, frame_afterLoad s x _⟩,
    ⟨_, exec_andRegister x y s, fun n => ?_, rfl, frame_afterLoad s x _⟩,
    ⟨_, exec_xorRegister x y s, fun n => ?_, rfl, frame_afterLoad s x _⟩⟩
  all_goals rw [State.reg_afterLoad_same]
  · exact BitVec.toNat_add (s.reg x) v
  · exact BitVec.getLsbD_or
  · exact BitVec.getLsbD_and
  · exact BitVec.getLsbD_xor

/-- Settles O21; twice a carry is below 256. -/
theorem addRegisterAddsWithCarry : Obligations.AddRegisterAddsWithCarry := by
  rintro x y s _ _ c rfl rfl hc
  rw [exec_addRegister]
  exact writeBack_binary (fun a b => (a + b) % 256) BitVec.toNat_add
    ((toNat_carryFlag _ _).trans hc.symm) (by split at hc <;> omega) x y s

/-- Settles O22; the flag less itself is 0. -/
theorem subtractYFromXSubtractsWithNotBorrow :
    Obligations.SubtractYFromXSubtractsWithNotBorrow := by
  rintro x y s _ _ f rfl rfl hf
  rw [exec_subtractYFromX]
  exact writeBack_binary (fun a b => (a + 256 - b) % 256) toNat_sub_bytes
    ((toNat_notBorrowFlag _ _).trans hf.symm) (by omega) x y s

/-- Settles O23: the same with the operands in the other order. -/
theorem subtractXFromYSubtractsWithNotBorrow :
    Obligations.SubtractXFromYSubtractsWithNotBorrow := by
  rintro x y s _ _ f rfl rfl hf
  rw [exec_subtractXFromY]
  exact writeBack_binary (fun a b => (b + 256 - a) % 256) (fun a b => toNat_sub_bytes b a)
    ((toNat_notBorrowFlag _ _).trans hf.symm) (by omega) x y s

/-- Settles O24; with `x = F` the flag itself is shifted, out to the right and up to the left. -/
theorem shiftsMoveOneBitIntoTheFlag : Obligations.ShiftsMoveOneBitIntoTheFlag := by
  rintro x y s _ rfl
  rw [exec_shiftRight, exec_shiftLeft]
  exact ⟨writeBack_unary (fun a => a / 2) toNat_shiftRight_one (toNat_shiftedOutRight _)
      (by omega) x s,
    writeBack_unary (fun a => 2 * a % 256) toNat_shiftLeft_one (toNat_shiftedOutLeft _)
      (by omega) x s⟩

/-- Settles O25: the byte that the source supplies is one of all bytes. -/
theorem andRandomMasksTheSuppliedByte : Obligations.AndRandomMasksTheSuppliedByte := by
  intro x v s
  have hall : ∀ rnd : Byte, ∃ t, andRandomWith rnd x v s = .next t ∧ t.reg x = rnd &&& v ∧
      t.draws = s.draws + 1 ∧ t.pc = s.pc + 2 ∧ Frame [x] [.pc, .draws] s t := fun rnd =>
    ⟨_, andRandomWith_eq rnd x v s, State.reg_afterLoad_same _ x _, rfl, rfl,
      (frame_countDraw s).afterLoad x _⟩
  exact ⟨hall, exec_andRandom x v s ▸ hall (Config.randomByte s.draws)⟩

end Sys2Proof.Machine
end

section
/-! Index register and memory (`spec/44_index_memory.md`). The two block stores end in one state,
`State.afterStore`; every memory instruction is such an end behind the one range check
`withinMemory`. -/

namespace Sys2Proof.Machine

variable {s t u : State} {regs : List Nibble} {parts : List Part} {p : Part} {x : Nibble}

/-! ### Frames -/

/-- An operation that writes one part adds that part to what has changed before it. -/
theorem Frame.andThen (h : Frame regs parts s t) (h' : Frame [] [p] t u) :
    Frame regs (p :: parts) s u :=
  (h.mono (fun _ => id) (fun _ => List.mem_cons_of_mem p)).trans (h'.mono (by simp) (by simp))

/-! ### The end of a block store (rules R220, R222) -/

/-- What a store of bytes from `I` on leaves of `s` at the end of an instruction. -/
def State.afterStore (s : State) (bytes : List Byte) : State :=
  (s.storeBytes s.I.toNat bytes).setPc (s.pc + 2)

theorem State.byteAt_afterStore_inside (s : State) {bytes : List Byte} {k : Nat} {v : Byte}
    (h : bytes[k]? = some v) : (s.afterStore bytes).byteAt (s.I.toNat + k) = v := by
  rw [State.afterStore, State.byteAt_setPc, State.byteAt_storeBytes,
    if_pos (Nat.le_add_right _ k), Nat.add_sub_cancel_left, h, Option.getD_some]

theorem State.byteAt_afterStore_outside (s : State) {bytes : List Byte} {a : Nat}
    (h : a < s.I.toNat ∨ s.I.toNat + bytes.length ≤ a) :
    (s.afterStore bytes).byteAt a = s.byteAt a := by
  rw [State.afterStore, State.byteAt_setPc, State.byteAt_storeBytes]
  split
  · rw [List.getElem?_eq_none (by omega), Option.getD_none]
  · rfl

theorem frame_afterStore (s : State) (bytes : List Byte) :
    Frame [] [.pc, .memory] s (s.afterStore bytes) :=
  (frame_storeBytes s s.I.toNat bytes).andThen (frame_setPc _ _)

/-! ### The end of a block load (rule R224) -/

/-- What a load of `V[0]` to `V[x]` from `I` on leaves of `s` at the end of an instruction. -/
def State.afterBlockLoad (s : State) (x : Nibble) : State :=
  (s.setRegs 0 (s.loadBytes s.I.toNat (x.toNat + 1))).setPc (s.pc + 2)

theorem State.pc_setRegs (s : State) (k : Nat) (bytes : List Byte) :
    (s.setRegs k bytes).pc = s.pc := by
  rw [State.setRegs_eq]

theorem State.reg_afterBlockLoad (s : State) (x k : Nibble) :
    (s.afterBlockLoad x).reg k =
      if k.toNat ≤ x.toNat then s.byteAt (s.I.toNat + k.toNat) else s.reg k := by
  have hfit : 0 + (s.loadBytes s.I.toNat (x.toNat + 1)).length ≤ 16 := by
    rw [State.length_loadBytes]
    omega
  rw [State.afterBlockLoad, State.reg_setPc, State.reg_setRegs s 0 _ hfit k,
    if_pos (Nat.zero_le _), Nat.sub_zero, State.getElem?_loadBytes, apply_ite (Option.getD · _)]
  exact if_congr Nat.lt_succ_iff rfl rfl

theorem frame_afterBlockLoad (s : State) (x : Nibble) :
    Frame (destinations (.readMemory x)) [.pc] s (s.afterBlockLoad x) := by
  have hload := frame_setRegs s 0 (s.loadBytes s.I.toNat (x.toNat + 1))
  rw [State.length_loadBytes, Nat.zero_add] at hload
  exact hload.andThen (frame_setPc _ _)

/-! ### What each variant does -/

theorem exec_setIndex (a : Addr) (s : State) :
    exec (.setIndex a) s = .next ((s.setIndex (addressOperand a)).setPc (s.pc + 2)) := rfl

/-- Rule R27: the flag is written first, so that it is the operand of `x = F`. -/
theorem exec_addIndex (x : Nibble) (s : State) :
    exec (.addIndex x) s = .next (((s.setFlag (indexFlag s.I (s.reg x))).setIndex
      (s.I + wideOperand (s.setFlag (indexFlag s.I (s.reg x))) x)).setPc (s.pc + 2)) := rfl

theorem exec_setIndexFontCharacter_of_digit (h : (s.reg x).toNat ≤ 15) :
    exec (.setIndexFontCharacter x) s =
      .next ((s.setIndex (BitVec.ofNat 16 (5 * (s.reg x).toNat))).setPc (s.pc + 2)) := by
  rw [exec, execSetIndexFontCharacter, withDigitOperand, if_neg (Nat.not_lt.2 h), finish_eq,
    newPc_next, State.pc_setIndex]

theorem exec_setIndexFontCharacter_of_gt (h : (s.reg x).toNat > 15) :
    exec (.setIndexFontCharacter x) s = .fault (.fontDigitOutOfRange (s.reg x)) := by
  rw [exec, execSetIndexFontCharacter, withDigitOperand, if_pos h, raise_eq]

theorem exec_storeBCD (x : Nibble) (s : State) :
    exec (.storeBCD x) s =
      withinMemory s.I.toNat 3 (.next (s.afterStore (decimalDigits (s.reg x)))) := rfl

theorem exec_writeMemory (x : Nibble) (s : State) :
    exec (.writeMemory x) s =
      withinMemory s.I.toNat (x.toNat + 1) (.next (s.afterStore (s.regsUpTo x))) := rfl

theorem exec_readMemory (x : Nibble) (s : State) :
    exec (.readMemory x) s =
      withinMemory s.I.toNat (x.toNat + 1) (.next (s.afterBlockLoad x)) := by
  rw [exec, execReadMemory, finish_eq, newPc_next, State.pc_setRegs]
  rfl

/-! ### Values as natural numbers -/

theorem toNat_indexFlag (i : Word) (a : Byte) :
    (indexFlag i a).toNat = if i.toNat + a.toNat > 0xFFF then 1 else 0 :=
  apply_ite BitVec.toNat _ _ _

theorem toNat_add_wideOperand (i : Word) (s : State) (x : Nibble) :
    (i + wideOperand s x).toNat = (i.toNat + (s.reg x).toNat) % 65536 := by
  rw [BitVec.toNat_add, wideOperand, BitVec.toNat_setWidth_of_le (by decide)]

/-- A digit stored as a byte is read back as the number it is. -/
theorem State.toNat_byteAt_afterStore (s : State) {bytes : List Byte} {k n : Nat} (hn : n < 256)
    (h : bytes[k]? = some (BitVec.ofNat 8 n)) :
    ((s.afterStore bytes).byteAt (s.I.toNat + k)).toNat = n := by
  rw [s.byteAt_afterStore_inside h, BitVec.toNat_ofNat, Nat.mod_eq_of_lt hn]

/-! ### The claims -/

/-- Settles O26: an address and the place of a glyph fit in 16 bits; above 15 there is no glyph. -/
theorem indexLoadsSetOnlyTheIndex : Obligations.IndexLoadsSetOnlyTheIndex := by
  refine fun a x s => ⟨?address, fun hdigit => ?glyph, exec_setIndexFontCharacter_of_gt⟩
  case address =>
    exact ⟨_, exec_setIndex a s, toNat_addressOperand a, rfl,
      (frame_setIndex s _).andThen (frame_setPc _ _)⟩
  case glyph =>
    have hfit : 5 * (s.reg x).toNat < 2 ^ 16 := by omega
    exact ⟨_, exec_setIndexFontCharacter_of_digit hdigit, Nat.mod_eq_of_lt hfit, rfl,
      (frame_setIndex s _).andThen (frame_setPc _ _)⟩

/-- Settles O27: the operand is read after the flag write, which it sees only when it is `VF`. -/
theorem addIndexAddsAndFlagsLeavingMemory : Obligations.AddIndexAddsAndFlagsLeavingMemory := by
  rintro x s _ _ c rfl rfl hc
  have hflag : (indexFlag s.I (s.reg x)).toNat = c := (toNat_indexFlag _ _).trans hc.symm
  refine ⟨_, exec_addIndex x s, rfl, ?flag,
    ((frame_setReg s 0xF _).andThen (frame_setIndex _ _)).andThen (frame_setPc _ _),
    fun hx => ?_, ?_⟩
  case flag =>
    rw [State.reg_setPc, State.reg_setIndex, State.reg_setFlag_same, hflag]
  all_goals rw [State.I_setPc, State.I_setIndex, toNat_add_wideOperand]
  · rw [s.reg_setFlag_other _ hx]
  · rintro rfl
    rw [State.reg_setFlag_same, hflag]

/-- Settles O28: a block store of the three digits, each below 256. -/
theorem storeBCDWritesThreeDigits : Obligations.StoreBCDWritesThreeDigits := by
  intro x s
  rw [exec_storeBCD]
  refine ⟨fun hin => ⟨_, withinMemory_of_inside _ (.inr (by omega)), rfl,
    s.toNat_byteAt_afterStore (k := 0) (by omega) rfl,
    s.toNat_byteAt_afterStore (k := 1) (by omega) rfl,
    s.toNat_byteAt_afterStore (k := 2) (by omega) rfl,
    fun a ha => s.byteAt_afterStore_outside ha, frame_afterStore s _⟩, fun hout => ?_⟩
  exact withinMemory_of_outside _ (by decide) (by omega)

/-- Settles O29: a block store of the registers up to `V[x]`. -/
theorem writeMemoryStoresTheRegisters : Obligations.WriteMemoryStoresTheRegisters := by
  intro x s
  rw [exec_writeMemory]
  refine ⟨fun hin => ⟨_, withinMemory_of_inside _ (.inr (by omega)), rfl, fun k hk => ?register,
    fun a ha => s.byteAt_afterStore_outside ?outside, frame_afterStore s _⟩, fun hout => ?fault⟩
  case register =>
    exact s.byteAt_afterStore_inside ((s.getElem?_regsUpTo x k).trans (if_pos hk))
  case outside =>
    rw [State.length_regsUpTo]
    omega
  case fault =>
    exact withinMemory_of_outside _ (Nat.succ_ne_zero _) (by omega)

/-- Settles O30: a block load of the registers up to `V[x]`. -/
theorem readMemoryLoadsTheRegisters : Obligations.ReadMemoryLoadsTheRegisters := by
  intro x s
  rw [exec_readMemory]
  refine ⟨fun hin => ⟨_, withinMemory_of_inside _ (.inr (by omega)), rfl, s.reg_afterBlockLoad x,
    frame_afterBlockLoad s x⟩, fun hout => ?_⟩
  exact withinMemory_of_outside _ (Nat.succ_ne_zero _) (by omega)

end Sys2Proof.Machine
end

section
/-! The display (`spec/45_display.md`). `Draw` is the blit of a list of pixels, no pixel twice, behind
the range check `withinMemory`; the closed form of rule R232 says which pixels the list holds. -/

namespace Sys2Proof.Machine

variable {s t : State} {parts : List Part} {x y rows : Nibble} {r c : Nat}

/-! ### What `ClearScreen` does -/

theorem exec_clearScreen (s : State) :
    exec .clearScreen s = .next (s.clearPx.setPc (s.pc + 2)) := rfl

/-! ### The closed form of the sprite -/

/-- Each coordinate is taken back to the sprite's row and column by the offset from the origin. -/
theorem mem_spritePixels_iff_spriteCovers {vx vy n : Nat} (hn : n ≤ 32) (hr : r < 32)
    (hc : c < 64) : (r, c) ∈ spritePixels vx vy n s ↔ spriteCovers s vx vy n r c := by
  have hrow : ∀ j < n, r = (vy + j) % 32 ↔ j = (r + 32 - vy % 32) % 32 := by omega
  have hcol : ∀ k < 8, c = (vx + k) % 64 ↔ k = (c + 64 - vx % 64) % 64 := by omega
  simp only [mem_spritePixels, spriteCovers, Bool.and_eq_true, decide_eq_true_eq]
  constructor
  · rintro ⟨j, hj, hrj, k, hk, hbit, hck⟩
    obtain rfl := (hrow j hj).1 hrj
    obtain rfl := (hcol k hk).1 hck
    exact ⟨hj, hk, hbit⟩
  · rintro ⟨hj, hk, hbit⟩
    exact ⟨_, hj, (hrow _ hj).2 rfl, _, hk, hbit, (hcol _ hk).2 rfl⟩

/-- Whether `Draw` with these operands has a set bit on the pixel: the sprite of the obligations, at
the origin of the operands. -/
def State.drawCovers (s : State) (x y rows : Nibble) : Nat → Nat → Bool :=
  spriteCovers s (drawOrigin s x) (drawOrigin s y) rows.toNat

/-- The sprite is read from `I`, memory and the origin registers, for which `VF` counts as 0. -/
theorem Frame.drawCovers_eq (h : Frame [0xF] parts s t) (hI : .index ∉ parts)
    (hm : .memory ∉ parts) (x y rows : Nibble) : t.drawCovers x y rows = s.drawCovers x y rows := by
  have hindex : t.I = s.I := h.parts_same .index hI
  have hmemory : ∀ a, t.byteAt a = s.byteAt a := h.parts_same .memory hm
  have horigin : ∀ z, drawOrigin t z = drawOrigin s z := by
    intro z
    unfold drawOrigin
    split
    · rfl
    · rw [h.regs_same z (by simpa)]
  funext r c
  simp only [State.drawCovers, spriteCovers, hindex, hmemory, horigin]

/-! ### The end of `Draw` -/

/-- The pixels that `Draw` toggles. -/
def State.drawPixels (s : State) (x y rows : Nibble) : List (Nat × Nat) :=
  spritePixels (drawOrigin s x) (drawOrigin s y) rows.toNat s

theorem mem_drawPixels (hr : r < 32) (hc : c < 64) :
    (r, c) ∈ s.drawPixels x y rows ↔ s.drawCovers x y rows r c :=
  mem_spritePixels_iff_spriteCovers (by omega) hr hc

theorem nodup_drawPixels : (s.drawPixels x y rows).Nodup :=
  nodup_spritePixels s (by omega)

/-- What `Draw` leaves of `s` when its sprite lies in memory. -/
def State.afterDraw (s : State) (x y rows : Nibble) : State :=
  (toggleAll (s.drawPixels x y rows) (s.setFlag 0)).setPc (s.pc + 2)

/-- Decision D9: the flag is cleared before the origin is sampled. -/
theorem toNat_reg_setFlag_zero (s : State) (x : Nibble) :
    ((s.setFlag 0).reg x).toNat = drawOrigin s x := by
  rw [State.reg_setFlag, drawOrigin, apply_ite BitVec.toNat]
  rfl

theorem exec_draw (x y rows : Nibble) (s : State) :
    exec (.draw x y rows) s =
      withinMemory s.I.toNat rows.toNat (.next (s.afterDraw x y rows)) := by
  rw [exec, execDraw, finish_eq, newPc_next, drawSprite_pc, drawSprite_eq,
    toNat_reg_setFlag_zero, toNat_reg_setFlag_zero]
  rfl

/-- The range of rule R66: no rows, or a sprite that ends in memory. -/
theorem exec_draw_of_inside (h : rows = 0 ∨ s.I.toNat + rows.toNat ≤ 0x1000) :
    exec (.draw x y rows) s = .next (s.afterDraw x y rows) := by
  rw [exec_draw]
  exact withinMemory_of_inside _ (h.imp_left fun h0 => congrArg BitVec.toNat h0)

theorem frame_afterDraw (s : State) (x y rows : Nibble) :
    Frame [0xF] [.pc, .screen] s (s.afterDraw x y rows) :=
  (((frame_setReg s 0xF 0).mono (fun _ => id) (by simp)).trans (frame_toggleAll _ _)).andThen
    (frame_setPc _ _)

theorem px_afterDraw (s : State) (x y rows : Nibble) (hr : r < 32) (hc : c < 64) :
    (s.afterDraw x y rows).px r c =
      s.px r c ^^^ (if s.drawCovers x y rows r c then 1 else 0) := by
  rw [State.afterDraw, State.px_setPc, px_toggleAll nodup_drawPixels
    (fun p hp => (spritePixels_on_screen p hp).2) _ r c hc, State.px_setFlag]
  simp only [mem_drawPixels hr hc]

/-- Whether a set bit of the sprite falls on a pixel that is 1 (rule R232). -/
def State.drawCollides (s : State) (x y rows : Nibble) : Prop :=
  ∃ r c, r < 32 ∧ c < 64 ∧ s.drawCovers x y rows r c ∧ s.px r c = 1

theorem drawCollides_iff_drawPixels :
    s.drawCollides x y rows ↔ ∃ p ∈ s.drawPixels x y rows, s.px p.1 p.2 = 1 := by
  constructor
  · rintro ⟨r, c, hr, hc, hcovers, hpx⟩
    exact ⟨(r, c), (mem_drawPixels hr hc).2 hcovers, hpx⟩
  · rintro ⟨⟨r, c⟩, hp, hpx⟩
    obtain ⟨hr, hc⟩ := spritePixels_on_screen _ hp
    exact ⟨r, c, hr, hc, (mem_drawPixels hr hc).1 hp, hpx⟩

theorem flag_afterDraw (s : State) (x y rows : Nibble) :
    (s.afterDraw x y rows).reg 0xF = 1 ∧ s.drawCollides x y rows ∨
      (s.afterDraw x y rows).reg 0xF = 0 ∧ ¬s.drawCollides x y rows := by
  rw [State.afterDraw, State.reg_setPc, drawCollides_iff_drawPixels]
  rcases reg_toggleAll (nodup_drawPixels (s := s)) (fun p hp => (spritePixels_on_screen p hp).2)
    (s.setFlag 0) 0xF with ⟨hone, -, hhit⟩ | ⟨hsame, hmiss⟩
  · exact .inl ⟨hone, hhit⟩
  · exact .inr ⟨hsame.trans (s.reg_setFlag_same 0), fun ⟨p, hp, hpx⟩ => hmiss rfl p hp hpx⟩

theorem flag_afterDraw_eq_one :
    (s.afterDraw x y rows).reg 0xF = 1 ↔ s.drawCollides x y rows := by
  rcases flag_afterDraw s x y rows with ⟨hflag, h⟩ | ⟨hflag, h⟩
  · exact iff_of_true hflag h
  · exact iff_of_false (by rw [hflag]; decide) h

/-! ### A second draw -/

theorem drawCovers_afterDraw (s : State) (x y rows : Nibble) :
    (s.afterDraw x y rows).drawCovers x y rows = s.drawCovers x y rows :=
  (frame_afterDraw s x y rows).drawCovers_eq (by decide) (by decide) x y rows

/-- A covered pixel is 1 after the draw exactly when it was 0 before. -/
theorem px_afterDraw_eq_one (hr : r < 32) (hc : c < 64) (hcov : s.drawCovers x y rows r c) :
    (s.afterDraw x y rows).px r c = 1 ↔ s.px r c = 0 := by
  rw [px_afterDraw s x y rows hr hc, if_pos hcov]
  exact BitVec.xor_left_inj (x := s.px r c) (y := 0) 1

/-- The second draw collides on the pixels that the first one lit. -/
theorem drawCollides_afterDraw :
    (s.afterDraw x y rows).drawCollides x y rows ↔
      ∃ r c, r < 32 ∧ c < 64 ∧ s.px r c = 0 ∧ s.drawCovers x y rows r c := by
  rw [State.drawCollides, drawCovers_afterDraw]
  constructor
  · rintro ⟨r, c, hr, hc, hcov, hpx⟩
    exact ⟨r, c, hr, hc, (px_afterDraw_eq_one hr hc hcov).1 hpx, hcov⟩
  · rintro ⟨r, c, hr, hc, hpx, hcov⟩
    exact ⟨r, c, hr, hc, hcov, (px_afterDraw_eq_one hr hc hcov).2 hpx⟩

/-! ### The claims -/

/-- Settles O32: a screen with no pixel listed is dark. -/
theorem clearScreenDarkensEveryPixel : Obligations.ClearScreenDarkensEveryPixel :=
  fun s => ⟨_, exec_clearScreen s, s.px_clearPx, rfl,
    (frame_clearPx s).andThen (frame_setPc _ _)⟩

/-- Settles O33: inside memory `Draw` leaves `State.afterDraw`; outside the range check raises. -/
theorem drawXorsTheSpriteAndFlagsCollision : Obligations.DrawXorsTheSpriteAndFlagsCollision := by
  intro x y rows s covers hcovers
  obtain rfl : covers = s.drawCovers x y rows := funext₂ hcovers
  refine ⟨fun hin => ⟨_, exec_draw_of_inside hin, rfl, frame_afterDraw s x y rows,
    fun r c => px_afterDraw s x y rows, ?flag⟩, fun h0 hout => ?fault⟩
  case flag =>
    refine (flag_afterDraw s x y rows).imp_right (And.imp_right fun hnone => ?_)
    exact fun r c hr hc hcov hpx => hnone ⟨r, c, hr, hc, hcov, hpx⟩
  case fault =>
    rw [exec_draw]
    exact withinMemory_of_outside _ (fun h => h0 (BitVec.eq_of_toNat_eq h)) hout

/-- Settles O34: the second draw covers the pixels of the first, so that each is toggled twice. The
canonical form of the screen is not needed. -/
theorem drawingTwiceRestoresTheScreen : Obligations.DrawingTwiceRestoresTheScreen := by
  intro x y rows s hin _
  have hI : (s.afterDraw x y rows).I = s.I :=
    (frame_afterDraw s x y rows).parts_same .index (by decide)
  refine ⟨_, _, exec_draw_of_inside hin, exec_draw_of_inside (by rwa [hI]),
    fun r c hr hc => ?pixel, flag_afterDraw_eq_one.trans drawCollides_afterDraw⟩
  case pixel =>
    rw [px_afterDraw _ _ _ _ hr hc, px_afterDraw _ _ _ _ hr hc, drawCovers_afterDraw,
      BitVec.xor_assoc, BitVec.xor_self, BitVec.xor_zero]

end Sys2Proof.Machine
end

section
/-! What the word `Fx0A` decodes to (`spec/30_encoding.md` rule R100). -/

namespace Sys2Proof

theorem decode_awaitKeyPress (x : Nibble) :
    decode (0xF#4 ++ x ++ 0x0A#8) = .ok (.awaitKeyPress x) := by
  simp only [decode, decodeGroupF, groupOf_value, fieldX_value, fieldValue_value,
    BitVec.toNat_ofNat, Nat.reducePow, Nat.reduceMod]

end Sys2Proof
end

section
/-! Timers and keypad (`spec/46_timers_keypad.md`). A timer read and a delivered key press are loads
of a register; a timer write is one part and then `pc`; a wait without a press is the state itself. -/

namespace Sys2Proof.Machine

variable {s : State} {x k : Nibble}

/-! ### What each variant does -/

theorem exec_storeDelayTimer (x : Nibble) (s : State) :
    exec (.storeDelayTimer x) s = .next (s.afterLoad x s.DT) := rfl

theorem exec_setDelayTimer (x : Nibble) (s : State) :
    exec (.setDelayTimer x) s = .next ((s.setDT (s.reg x)).setPc (s.pc + 2)) := rfl

theorem exec_setSoundTimer (x : Nibble) (s : State) :
    exec (.setSoundTimer x) s = .next ((s.setST (s.reg x)).setPc (s.pc + 2)) := rfl

theorem exec_awaitKeyPress_of_some (h : s.latch = some k) :
    exec (.awaitKeyPress x) s = .next ((s.setLatch none).afterLoad x (keyCode k)) := by
  simp only [exec, execAwaitKeyPress, h]
  rfl

theorem exec_awaitKeyPress_of_none (h : s.latch = none) :
    exec (.awaitKeyPress x) s = .next s := by
  simp only [exec, execAwaitKeyPress, h, finish_eq, newPc_hold, State.setPc_self]

/-! ### The delivered key -/

theorem toNat_keyCode (k : Nibble) : (keyCode k).toNat = k.toNat :=
  BitVec.toNat_setWidth_of_le (by decide)

/-- Rule R256: a latched press is delivered to `V[x]` and consumed. -/
theorem awaitKeyPress_delivers (h : s.latch = some k) :
    ∃ t, exec (.awaitKeyPress x) s = .next t ∧ (t.reg x).toNat = k.toNat ∧ t.latch = none ∧
      t.pc = s.pc + 2 ∧ Frame [x] [.pc, .latch] s t := by
  refine ⟨_, exec_awaitKeyPress_of_some h, ?_, rfl, rfl, (frame_setLatch s none).afterLoad x _⟩
  rw [State.reg_afterLoad_same, toNat_keyCode]

/-! ### The claims -/

/-- Settles O35: the read is a load of `V[x]`, each write an update of its timer. -/
theorem timerMovesCopyOneByte : Obligations.TimerMovesCopyOneByte := by
  intro x s
  rw [exec_storeDelayTimer, exec_setDelayTimer, exec_setSoundTimer]
  exact ⟨⟨_, rfl, s.reg_afterLoad_same x s.DT, rfl, frame_afterLoad s x s.DT⟩,
    ⟨_, rfl, rfl, rfl, (frame_setDT s (s.reg x)).andThen (frame_setPc _ _)⟩,
    ⟨_, rfl, rfl, rfl, (frame_setST s (s.reg x)).andThen (frame_setPc _ _)⟩⟩

/-- Settles O36: a press, latched before or by the key event just past, is delivered; without one
the instruction holds, and so does the cycle that fetched it. -/
theorem awaitKeyPressConsumesTheLatchOrHolds :
    Obligations.AwaitKeyPressConsumesTheLatchOrHolds := by
  refine fun x s => ⟨decode_awaitKeyPress x, fun k => awaitKeyPress_delivers,
    exec_awaitKeyPress_of_none, fun hempty hfetch => ?cycle, fun k => ?press⟩
  case cycle =>
    exact ⟨_, stepCycle_next.2 ⟨_, hfetch, exec_awaitKeyPress_of_none hempty, rfl⟩, rfl⟩
  case press =>
    obtain ⟨t, hexec, hreg, hlatch, hpc, -⟩ :=
      awaitKeyPress_delivers (x := x) (latch_setKeyState true k s)
    exact ⟨t, hexec, hreg, hlatch, hpc⟩

end Sys2Proof.Machine
end

section
/-! The codec both ways (`spec/48_codec_disassembler.md` rules R272 to R274): a well-formed
instruction is what its word decodes to, and a word is the encoding of what it decodes to. -/

namespace Sys2Proof

variable {w : Word} {i : Instr}

/-- By shape of the word (rule R91); in group `0` the priority of rule R101 takes the two words that
well-formedness excludes (rule R105). -/
theorem decode_encodeWord (h : i.wf) : decode (encodeWord i) = .ok i := by
  cases i with
  | clearScreen | returnFromSubroutine => rfl
  | callMachineLanguageSubroutine a =>
    obtain ⟨hclear, hreturn⟩ : a ≠ 0x0E0 ∧ a ≠ 0x0EE := by simpa [Instr.wf] using h
    rw [encodeWord, decode_group0, if_neg hclear, if_neg hreturn]
  | jumpAbsolute a | callSubroutine a | setIndex a | jumpRelative a =>
    simp [encodeWord, decode]
  | skipIfEqualValue x v | skipIfNotEqualValue x v | setValue x v | addValue x v
  | andRandom x v =>
    simp [encodeWord, decode]
  | skipIfEqualRegister x y | skipIfNotEqualRegister x y | draw x y rows =>
    simp [encodeWord, decode]
  | setRegister x y | orRegister x y | andRegister x y | xorRegister x y | addRegister x y
  | subtractYFromX x y | shiftRight x y | subtractXFromY x y | shiftLeft x y =>
    simp [encodeWord, decode, decodeGroup8]
  | skipIfKeyPressed x | skipIfKeyNotPressed x =>
    simp [encodeWord, decode, decodeGroupE]
  | storeDelayTimer x | awaitKeyPress x | setDelayTimer x | setSoundTimer x | addIndex x
  | setIndexFontCharacter x | storeBCD x | writeMemory x | readMemory x =>
    simp [encodeWord, decode, decodeGroupF]

/-- Only the catch-all can be ill formed, and the decoder reads its two ill-formed words as the two
instructions of rule R101. -/
theorem wf_of_decode (h : decode w = .ok i) : i.wf := by
  cases i with
  | callMachineLanguageSubroutine a =>
    rw [← encodeWord_of_decode h, encodeWord, decode_group0] at h
    split_ifs at h with hclear hreturn
    · cases h
    · cases h
    · exact Bool.and_eq_true_iff.2 ⟨bne_iff_ne.2 hclear, bne_iff_ne.2 hreturn⟩
  | _ => rfl

/-- Encoding and decoding are one relation between instructions and words. -/
theorem encode_eq_some_iff_decode : encode i = some w ↔ decode w = .ok i := by
  rw [encode_eq_some]
  constructor
  · rintro ⟨hwf, rfl⟩
    exact decode_encodeWord hwf
  · exact fun h => ⟨wf_of_decode h, encodeWord_of_decode h⟩

/-- Settles O4: the word of a well-formed instruction decodes to it. -/
theorem everyWellFormedInstructionRoundTrips : Obligations.EveryWellFormedInstructionRoundTrips :=
  fun i => ⟨fun hwf => ⟨encodeWord i, encode_eq_some.2 ⟨hwf, rfl⟩, decode_encodeWord hwf⟩,
    encode_eq_none.2⟩

/-- Settles O5: what decodes is well formed, and its encoding is the word. -/
theorem everyDecodedWordEncodesBack : Obligations.EveryDecodedWordEncodesBack :=
  fun _ _ h => ⟨encode_eq_some_iff_decode.2 h, wf_of_decode h⟩

/-! ### Group `8` -/

theorem decode_group8 (x y n : Nibble) :
    decode (0x8#4 ++ x ++ y ++ n) = decodeGroup8 (0x8#4 ++ x ++ y ++ n) := by
  simp only [decode, groupOf_nibbles, BitVec.toNat_ofNat, Nat.reducePow, Nat.reduceMod]

/-- Settles O1: the four words by evaluation; in group `8` a low nibble that is none of the nine
sub-opcodes falls to the last arm. -/
theorem decodeGivesTheExamplesOfTheSource : Obligations.DecodeGivesTheExamplesOfTheSource := by
  refine ⟨rfl, rfl, rfl, rfl, fun x y n hn => ?_⟩
  rw [decode_group8, decodeGroup8, fieldN_nibbles]
  simp only [List.mem_cons, List.not_mem_nil, or_false] at hn
  rcases hn with rfl | rfl | rfl | rfl | rfl | rfl | rfl <;> rfl

end Sys2Proof
end

section
/-! The disassembler (`spec/48_codec_disassembler.md` rules R277 to R282): a word at the head of the
bytes gives one instruction, or ends the disassembly; a listing has a line for each instruction. -/

namespace Sys2Proof.Machine

variable {hi lo : Byte} {rest bytes : List Byte} {i : Instr} {is : List Instr} {w : Word}
  {ws : List Word}

/-! ### The word at the head -/

theorem disassemble_of_decode_ok (h : decode (joinBytes hi lo) = .ok i) :
    disassemble (hi :: lo :: rest) = (disassemble rest).map (i :: ·) := by
  rw [disassemble, h]
  cases disassemble rest <;> rfl

theorem disassemble_of_decode_error (h : ∀ i, decode (joinBytes hi lo) ≠ .ok i) :
    disassemble (hi :: lo :: rest) = .error (.unrecognizedOpcode (joinBytes hi lo)) := by
  cases hd : decode (joinBytes hi lo) with
  | ok i => exact absurd hd (h i)
  | error e => rw [disassemble, hd, decode_error hd]

theorem disassemble_cons_ok (h : disassemble (hi :: lo :: rest) = .ok is) :
    ∃ i js, decode (joinBytes hi lo) = .ok i ∧ disassemble rest = .ok js ∧ is = i :: js := by
  cases hd : decode (joinBytes hi lo) with
  | error e => simp [disassemble, hd] at h
  | ok i =>
    rw [disassemble_of_decode_ok hd] at h
    cases hrest : disassemble rest with
    | error e => rw [hrest] at h; cases h
    | ok js => rw [hrest] at h; cases h; exact ⟨i, js, rfl, rfl, rfl⟩

/-- Words that encode instructions are read as those, and what follows them decides the rest. -/
theorem disassemble_words_append (h : List.Forall₂ (fun i w => encode i = some w) is ws)
    (tail : List Byte) :
    disassemble (ws.flatMap wordBytes ++ tail) = (disassemble tail).map (is ++ ·) := by
  induction h with
  | nil => cases htail : disassemble tail <;> simp [htail, Except.map]
  | @cons i w is ws henc _ ih =>
    have hw : decode (joinBytes (highByte w) (lowByte w)) = .ok i := by
      rwa [joinBytes_high_low, ← encode_eq_some_iff_decode]
    rw [List.flatMap_cons, List.append_assoc, wordBytes, List.cons_append, List.cons_append,
      List.nil_append, disassemble_of_decode_ok hw, ih]
    cases disassemble tail <;> rfl

/-- Settles O55: after the words come nothing, a byte that forms no word, or a bad word. -/
theorem disassembleReadsWordsUntilTheFirstBad :
    Obligations.DisassembleReadsWordsUntilTheFirstBad := by
  intro is ws h
  refine ⟨?nothing, fun b => ?byte, fun hi lo rest hbad => ?bad⟩
  case nothing => simpa [disassemble, Except.map] using disassemble_words_append h []
  case byte => simpa [disassemble, Except.map] using disassemble_words_append h [b]
  case bad => rw [disassemble_words_append h, disassemble_of_decode_error hbad]; rfl

/-- Settles O56, two bytes at a time: their word is the encoding of the instruction it gives. -/
theorem disassemblyEncodesBackToItsInput : Obligations.DisassemblyEncodesBackToItsInput
  | [], _, h => by cases h; exact ⟨rfl, [], .nil, rfl⟩
  | [_], _, h => by cases h; exact ⟨by simp, [], .nil, by simp⟩
  | hi :: lo :: rest, _, h => by
    obtain ⟨i, js, hdecode, hrest, rfl⟩ := disassemble_cons_ok h
    obtain ⟨hlen, ws, hws, hbytes⟩ := disassemblyEncodesBackToItsInput rest js hrest
    have hhalf : (hi :: lo :: rest).length / 2 = rest.length / 2 + 1 := by
      simp only [List.length_cons]
      omega
    refine ⟨by rw [List.length_cons, hlen, hhalf], joinBytes hi lo :: ws,
      .cons (encode_eq_some_iff_decode.2 hdecode) hws, ?_⟩
    rw [List.flatMap_cons, wordBytes_joinBytes, hbytes, hhalf, Nat.mul_succ]
    rfl

/-! ### Listings -/

section

variable (sentence : Instr → String) (line : LineFormat)

theorem toList_foldr_append (texts : List String) :
    (texts.foldr (· ++ ·) "").toList = texts.flatMap String.toList := by
  induction texts with
  | nil => rfl
  | cons text rest ih => rw [List.foldr_cons, String.toList_append, ih, List.flatMap_cons]

theorem length_renderLines (address : Word) (is : List Instr) :
    (renderLines sentence line address is).length = is.length := by
  induction is generalizing address with
  | nil => rfl
  | cons i rest ih => rw [renderLines, List.length_cons, ih, List.length_cons]

/-- From any first address on, modulo 65536 (decision D29). -/
theorem getElem?_renderLines (address : Word) (is : List Instr) (k : Nat) :
    (renderLines sentence line address is)[k]? =
      is[k]?.map fun i =>
        line (address + BitVec.ofNat 16 (2 * k)) (encodeWord i) (sentence i) := by
  induction is generalizing address k with
  | nil => rfl
  | cons i rest ih =>
    cases k with
    | zero => simp [renderLines]
    | succ k =>
      have haddress : address + 2 + BitVec.ofNat 16 (2 * k) =
          address + BitVec.ofNat 16 (2 * (k + 1)) := by
        bv_omega
      rw [renderLines, List.getElem?_cons_succ, ih, haddress, List.getElem?_cons_succ]

end

/-- Settles O57: the lines, counted from address 0. -/
theorem renderShowsOneLinePerInstruction : Obligations.RenderShowsOneLinePerInstruction := by
  refine fun sentence line is => ⟨toList_foldr_append _, length_renderLines sentence line 0 is,
    fun k i hget => ⟨?_, fun w hw => (encode_eq_some.1 hw).2.symm⟩⟩
  simp [getElem?_renderLines, hget]

/-- Settles O58, by evaluation. -/
theorem defaultListingOfTheExample : Obligations.DefaultListingOfTheExample := by
  unfold Obligations.DefaultListingOfTheExample
  decide

end Sys2Proof.Machine
end

section
/-! Execution faults (`spec/60_exceptions.md` rules R301 to R307): every instruction either has its
condition and completes, or lacks it and raises the one fault of its row. -/

namespace Sys2Proof.Machine

variable {s t : State} {i : Instr} {f : Fault} {x : Nibble}

/-- The execute rows of rules R301 to R305: `i` raises `f` in `s`. -/
inductive Raises (s : State) : Instr → Fault → Prop where
  | stackFull (address : Addr) (h : s.sp.val = 16) :
    Raises s (.callSubroutine address) .stackOverflow
  | stackEmpty (h : s.sp.val = 0) : Raises s .returnFromSubroutine .stackUnderflow
  | outside {i : Instr} (haccess : 1 ≤ accessLength i)
    (hout : s.I.toNat + accessLength i - 1 > 0xFFF) :
    Raises s i (.memoryOutOfRange (max s.I.toNat 0x1000))
  | noKey {i : Instr} (x : Nibble) (hi : i = .skipIfKeyPressed x ∨ i = .skipIfKeyNotPressed x)
    (h : (s.reg x).toNat ≥ 16) : Raises s i (.keyOutOfRange (s.reg x))
  | noDigit (x : Nibble) (h : (s.reg x).toNat ≥ 16) :
    Raises s (.setIndexFontCharacter x) (.fontDigitOutOfRange (s.reg x))

/-! ### What the rows say is what happens -/

/-- Each variant that accesses memory does so behind the range check of its whole length (rule
R66). -/
theorem exec_of_outside (haccess : 1 ≤ accessLength i)
    (hout : s.I.toNat + accessLength i - 1 > 0xFFF) :
    exec i s = .fault (.memoryOutOfRange (max s.I.toNat 0x1000)) := by
  have hcheck : ∀ body, withinMemory s.I.toNat (accessLength i) body =
      .fault (.memoryOutOfRange (max s.I.toNat 0x1000)) := fun body =>
    withinMemory_of_outside body (by omega) (by omega)
  cases i with
  | draw x y rows => exact (exec_draw x y rows s).trans (hcheck _)
  | storeBCD x => exact (exec_storeBCD x s).trans (hcheck _)
  | writeMemory x => exact (exec_writeMemory x s).trans (hcheck _)
  | readMemory x => exact (exec_readMemory x s).trans (hcheck _)
  | _ => exact absurd haccess (Nat.not_succ_le_zero 0)

theorem exec_of_raises (h : Raises s i f) : exec i s = .fault f := by
  cases h with
  | stackFull address h => exact exec_callSubroutine_of_full address (by omega)
  | stackEmpty h => exact exec_returnFromSubroutine_of_empty h
  | outside haccess hout => exact exec_of_outside haccess hout
  | noKey x hi h =>
    rcases hi with rfl | rfl
    · exact (exec_skipIfKeyPressed x s).trans (withKeyOperand_of_gt h)
    · exact (exec_skipIfKeyNotPressed x s).trans (withKeyOperand_of_gt h)
  | noDigit x h => exact exec_setIndexFontCharacter_of_gt h

/-! ### Every instruction completes or raises -/

/-- The condition of `i` holds and `i` completes, or it does not and `i` raises. -/
def CompletesOrRaises (s : State) (i : Instr) : Prop :=
  (canExecute s i ∧ ∃ t, exec i s = .next t) ∨ (¬canExecute s i ∧ ∃ f, Raises s i f)

theorem completesOrRaises_memory
    (hexec : exec i s = withinMemory s.I.toNat (accessLength i) (.next t))
    (hcan : canExecute s i ↔ accessLength i = 0 ∨ s.I.toNat + accessLength i ≤ 0x1000) :
    CompletesOrRaises s i := by
  by_cases h : canExecute s i
  · exact .inl ⟨h, t, hexec.trans (withinMemory_of_inside _ (hcan.1 h))⟩
  · have hout := mt hcan.2 h
    exact .inr ⟨h, _, .outside (by omega) (by omega)⟩

theorem completesOrRaises_key {skips : Nibble → Bool}
    (hi : i = .skipIfKeyPressed x ∨ i = .skipIfKeyNotPressed x)
    (hexec : exec i s = withKeyOperand s x fun k => skipIf (skips k) s)
    (hcan : canExecute s i ↔ (s.reg x).toNat ≤ 15) : CompletesOrRaises s i := by
  by_cases h : canExecute s i
  · have hle := hcan.1 h
    refine .inl ⟨h, _, hexec.trans (withKeyOperand_of_key (k := (s.reg x).setWidth 4) ?_)⟩
    rw [BitVec.toNat_setWidth, Nat.mod_eq_of_lt (by omega)]
  · exact .inr ⟨h, _, .noKey x hi (Nat.not_le.1 (mt hcan.2 h))⟩

/-- The variants not named have no check (rule R307). -/
theorem completesOrRaises (s : State) (i : Instr) : CompletesOrRaises s i := by
  cases i with
  | callSubroutine address =>
    by_cases room : s.sp.val < 16
    · exact .inl ⟨room, _, exec_callSubroutine_of_room address room⟩
    · exact .inr ⟨room, _, .stackFull address (by omega)⟩
  | returnFromSubroutine =>
    by_cases empty : s.sp.val = 0
    · exact .inr ⟨fun h => h empty, _, .stackEmpty empty⟩
    · exact .inl ⟨empty, _, exec_returnFromSubroutine_of_nonempty empty⟩
  | skipIfKeyPressed x =>
    exact completesOrRaises_key (.inl rfl) (exec_skipIfKeyPressed x s) Iff.rfl
  | skipIfKeyNotPressed x =>
    exact completesOrRaises_key (.inr rfl) (exec_skipIfKeyNotPressed x s) Iff.rfl
  | setIndexFontCharacter x =>
    by_cases hdigit : (s.reg x).toNat ≤ 15
    · exact .inl ⟨hdigit, _, exec_setIndexFontCharacter_of_digit hdigit⟩
    · exact .inr ⟨hdigit, _, .noDigit x (Nat.not_le.1 hdigit)⟩
  | awaitKeyPress x => exact .inl ⟨trivial, execAwaitKeyPress_completes x s⟩
  | draw x y rows =>
    have hrows : rows = 0 ↔ rows.toNat = 0 := BitVec.toNat_inj.symm
    exact completesOrRaises_memory (exec_draw x y rows s) (or_congr_left hrows)
  | storeBCD x =>
    refine completesOrRaises_memory (exec_storeBCD x s) ?_
    simp only [canExecute, accessLength]
    omega
  | writeMemory x =>
    refine completesOrRaises_memory (exec_writeMemory x s) ?_
    simp only [canExecute, accessLength]
    omega
  | readMemory x =>
    refine completesOrRaises_memory (exec_readMemory x s) ?_
    simp only [canExecute, accessLength]
    omega
  | _ => exact .inl ⟨trivial, _, rfl⟩

theorem exec_fault_iff_raises : exec i s = .fault f ↔ Raises s i f := by
  refine ⟨fun h => ?_, exec_of_raises⟩
  rcases completesOrRaises s i with ⟨-, t, hnext⟩ | ⟨-, g, hg⟩
  · cases h.symm.trans hnext
  · cases h.symm.trans (exec_of_raises hg)
    exact hg

/-- Settles O44: an instruction that raises does not complete. -/
theorem instructionCompletesExactlyWhenItCan :
    Obligations.InstructionCompletesExactlyWhenItCan := by
  intro i s
  rcases completesOrRaises s i with ⟨hcan, hnext⟩ | ⟨hcannot, f, hf⟩
  · exact iff_of_true hnext hcan
  · refine iff_of_false (fun ⟨t, hnext⟩ => ?_) hcannot
    cases hnext.symm.trans (exec_of_raises hf)

/-- Settles O45: the execute rows, fault by fault. -/
theorem eachFaultComesFromItsInstructions : Obligations.EachFaultComesFromItsInstructions := by
  intro i s f
  rw [exec_fault_iff_raises]
  constructor
  · intro h
    cases h with
    | stackFull address h => exact ⟨⟨address, rfl⟩, h⟩
    | stackEmpty h => exact ⟨rfl, h⟩
    | outside haccess hout => exact ⟨haccess, hout, rfl⟩
    | noKey x hi h => exact ⟨x, hi, rfl, h⟩
    | noDigit x h => exact ⟨x, rfl, rfl, h⟩
  · intro h
    cases f with
    | unrecognizedOpcode w => exact h.elim
    | stackOverflow => obtain ⟨⟨address, rfl⟩, h⟩ := h; exact .stackFull address h
    | stackUnderflow => obtain ⟨rfl, h⟩ := h; exact .stackEmpty h
    | memoryOutOfRange a => obtain ⟨haccess, hout, rfl⟩ := h; exact .outside haccess hout
    | keyOutOfRange v => obtain ⟨x, hi, rfl, h⟩ := h; exact .noKey x hi h
    | fontDigitOutOfRange v => obtain ⟨x, rfl, rfl, h⟩ := h; exact .noDigit x h

end Sys2Proof.Machine
end

section
/-! Ticks and key events (`spec/60_exceptions.md` rules R320 and R323): what one of them does, and
what the ticks of a whole countdown return. -/

namespace Sys2Proof.Machine

variable {s : State}

/-! ### One tick -/

theorem toNat_countDown (t : Byte) : (countDown t).toNat = t.toNat - 1 := by
  unfold countDown
  split
  · rename_i hzero
    rw [hzero]
    rfl
  · bv_omega

theorem frame_tickTimer (s : State) :
    Frame [] [.delayTimer, .soundTimer] s (tickTimer s).1 :=
  ((frame_setDT s _).andThen (frame_setST _ _)).mono (fun _ => id) (by decide)

theorem beep_tickTimer : (tickTimer s).2 = true ↔ s.ST.toNat = 1 :=
  beq_iff_eq.trans BitVec.toNat_inj.symm

/-- Settles O37: both timers count down, and the beep is the test of the sound timer. -/
theorem tickCountsBothTimersDown : Obligations.TickCountsBothTimersDown :=
  fun s => ⟨toNat_countDown s.DT, toNat_countDown s.ST, beep_tickTimer, frame_tickTimer s⟩

/-! ### A countdown -/

theorem toNat_ST_tickTimer (s : State) : (tickTimer s).1.ST.toNat = s.ST.toNat - 1 :=
  toNat_countDown s.ST

theorem responses_tick (ops : List Operation) (s : State) :
    responses (.tickTimer :: ops) s =
      .beep (decide (s.ST.toNat = 1)) :: responses ops (tickTimer s).1 := by
  rw [← Bool.decide_congr (beep_tickTimer (s := s)), Bool.decide_eq_true]
  rfl

/-- A sound timer at 0 stays there, so it is silent. -/
theorem responses_ticks_silent (m : Nat) (h : s.ST.toNat = 0) :
    responses (List.replicate m .tickTimer) s = List.replicate m (.beep false) := by
  induction m generalizing s with
  | zero => rfl
  | succ m ih =>
    rw [List.replicate_succ, responses_tick, ih (by rw [toNat_ST_tickTimer, h]), h]
    rfl

/-- Settles O38, by induction on the ticks before the beep. -/
theorem soundTimerBeepsOncePerCountdown : Obligations.SoundTimerBeepsOncePerCountdown := by
  intro s n m h
  induction n generalizing s with
  | zero =>
    rw [Nat.zero_add, Nat.add_comm, List.replicate_succ, responses_tick,
      responses_ticks_silent m (by rw [toNat_ST_tickTimer, h]), h]
    rfl
  | succ n ih =>
    rw [Nat.add_right_comm (n + 1) 1 m, List.replicate_succ, responses_tick,
      ih _ (by rw [toNat_ST_tickTimer, h, Nat.add_sub_cancel]), h]
    simp [List.replicate_succ]

/-! ### One key event -/

theorem keyHeld_setKeyState (pressed : Bool) (k j : Nibble) (s : State) :
    (setKeyState pressed k s).keyHeld j = if j = k then pressed else s.keyHeld j := by
  cases pressed <;> exact s.keyHeld_setKey k j _

theorem frame_setKeyState (pressed : Bool) (k : Nibble) (s : State) :
    Frame [] [.keypad, .latch] s (setKeyState pressed k s) := by
  cases pressed with
  | false => exact (frame_setKey s k false).mono (fun _ => id) (by decide)
  | true =>
    exact ((frame_setKey s k true).andThen (frame_setLatch _ _)).mono (fun _ => id) (by decide)

/-- Settles O39: a key event writes its key, and a press the latch. -/
theorem keyEventSetsTheKeyAndLatchesAPress : Obligations.KeyEventSetsTheKeyAndLatchesAPress :=
  fun pressed k s => ⟨fun j => keyHeld_setKeyState pressed k j s, latch_setKeyState pressed k s,
    frame_setKeyState pressed k s⟩

end Sys2Proof.Machine
end

section
/-! Terminal states (`spec/70_reset_and_hazards.md` rule R365): the step is the jump to itself, and
ticks and key events change neither `pc` nor memory. -/

namespace Sys2Proof.Machine

variable {s t : State}

theorem State.terminal_congr (h : s.terminal) (hpc : t.pc = s.pc) (hm : t.memory = s.memory) :
    t.terminal := by
  obtain ⟨address, hfetch, hself⟩ := h
  exact ⟨address, (State.fetchInstr_congr hpc hm).trans hfetch, hpc ▸ hself⟩

theorem stepCycle_of_terminal (h : s.terminal) :
    ∃ address, stepCycle s = .next (s, cycleOutput (.jumpAbsolute address) s) := by
  obtain ⟨address, hfetch, hself⟩ := h
  obtain ⟨-, hfixed⟩ := jumpAbsoluteGoesToItsAddress address s
  exact ⟨address, stepCycle_next.2 ⟨_, hfetch, hfixed hself, rfl⟩⟩

theorem step_of_terminal (h : s.terminal) : step s = .next s := by
  obtain ⟨address, hcycle⟩ := stepCycle_of_terminal h
  obtain ⟨i, hfetch, hexec, -⟩ := stepCycle_next.1 hcycle
  exact (step_next s).2 ⟨i, hfetch, hexec⟩

/-! ### Operations -/

theorem perform_stepCycle_of_terminal (h : s.terminal) :
    ∃ out, Operation.stepCycle.perform s = (s, .cycle out) := by
  obtain ⟨address, hcycle⟩ := stepCycle_of_terminal h
  exact ⟨_, by rw [Operation.perform, hcycle]⟩

theorem perform_keeps_terminal (o : Operation) (s : State) (h : s.terminal) :
    (o.perform s).1.terminal := by
  cases o with
  | stepCycle =>
    obtain ⟨out, hperform⟩ := perform_stepCycle_of_terminal h
    rwa [hperform]
  | tickTimer => exact State.terminal_congr h rfl rfl
  | setKeyState pressed k =>
    obtain ⟨key, latch, heq⟩ := setKeyState_eq pressed k s
    simp only [Operation.perform, heq]
    exact State.terminal_congr h rfl rfl
  | snapshot => exact h

theorem perform_of_terminal_ne_stopped (o : Operation) (f : Fault) (h : s.terminal) :
    (o.perform s).2 ≠ .stopped f := by
  cases o with
  | stepCycle =>
    obtain ⟨out, hperform⟩ := perform_stepCycle_of_terminal h
    rw [hperform]
    nofun
  | tickTimer | setKeyState pressed k | snapshot => nofun

theorem faultFree_of_terminal (ops : List Operation) (h : s.terminal) : faultFree ops s := by
  intro f
  induction ops generalizing s with
  | nil => exact List.not_mem_nil
  | cons o rest ih =>
    rw [responses, List.mem_cons, not_or]
    exact ⟨(perform_of_terminal_ne_stopped o f h).symm, ih (perform_keeps_terminal o s h)⟩

/-- Settles O52, with "the state is terminal" as the invariant of the operations. -/
theorem terminalStatesStayTerminal : Obligations.TerminalStatesStayTerminal := by
  refine fun s h => ⟨step_of_terminal h, ?_,
    fun ops => ⟨runOperations_keeps perform_keeps_terminal ops h, faultFree_of_terminal ops h⟩⟩
  obtain ⟨address, hcycle⟩ := stepCycle_of_terminal h
  exact ⟨_, hcycle, rfl⟩

end Sys2Proof.Machine
end
